-- ==== Sys2Proof/Word.lean ====
section
/-! DEFINITION. Word.lean: the byte, the 32-bit register word, the 4-byte word of the key schedule (also a column of
the State) and the 16-byte block, as plain data (00_scope.md R12 to R14). -/

namespace Sys2Proof

/-- A byte: 8 bits, bit 0 the least significant (R12). -/
abbrev Byte := BitVec 8

/-- A word in a register: 32 bits (R12). -/
abbrev Word := BitVec 32

/-- A 4-byte sequence `[b0, b1, b2, b3]`, `b0` "the first byte": a word of the key schedule (R13), and a column of
the State, row 0 first (R14). -/
structure Quad where
  b0 : Byte
  b1 : Byte
  b2 : Byte
  b3 : Byte
deriving DecidableEq, Repr

/-- A 16-byte block viewed as four words (R13): word `k` is bytes `4k..4k+3`, which is column `k` of the State
matrix (R14). -/
structure Block where
  c0 : Quad
  c1 : Quad
  c2 : Quad
  c3 : Quad
deriving DecidableEq, Repr

/-- The round key schedule: the 44 words `w[0..43]` (10_state.md R32). -/
abbrev RoundKeys := Vector Quad 44

/-- Four zero bytes. -/
def Quad.zero : Quad := ⟨0, 0, 0, 0⟩

/-- Sixteen zero bytes: the reset value of every 16-byte register (10_state.md R17). -/
def Block.zero : Block := ⟨Quad.zero, Quad.zero, Quad.zero, Quad.zero⟩

/-- 44 zero words: the reset value of RK (10_state.md R17). -/
def RoundKeys.zero : RoundKeys := Vector.replicate 44 Quad.zero

end Sys2Proof
end

