-- ==== Sys2Proof/Machine/Bytes.lean ====
section
/-! DEFINITION. Machine/Bytes.lean: indexing of 4-byte words, blocks and the State matrix (00_scope.md R13, R14), XOR
(40_tables.md R67), and the packing of a 4-byte word into a 32-bit register (20_memory.md R46). -/

namespace Sys2Proof

/-- Byte `n` of a 4-byte word, byte 0 the first; for a column, the byte of row `n`. -/
def Quad.get (q : Quad) (n : Fin 4) : Byte :=
  match n with
  | 0 => q.b0
  | 1 => q.b1
  | 2 => q.b2
  | 3 => q.b3

/-- The 4-byte word whose byte `n` is `f n`. -/
def Quad.ofFn (f : Fin 4 → Byte) : Quad := ⟨f 0, f 1, f 2, f 3⟩

/-- `f` applied to each byte of a 4-byte word. -/
def Quad.map (f : Byte → Byte) (q : Quad) : Quad := ⟨f q.b0, f q.b1, f q.b2, f q.b3⟩

/-- `a ^ b` on 4-byte words: bytewise XOR (R67, R13). -/
def Quad.xor (a b : Quad) : Quad := ⟨a.b0 ^^^ b.b0, a.b1 ^^^ b.b1, a.b2 ^^^ b.b2, a.b3 ^^^ b.b3⟩

/-- Word `k` of a block, which is column `k` of the State (R13, R14). -/
def Block.column (b : Block) (k : Fin 4) : Quad :=
  match k with
  | 0 => b.c0
  | 1 => b.c1
  | 2 => b.c2
  | 3 => b.c3

/-- The block with its word `k` replaced. -/
def Block.setColumn (b : Block) (k : Fin 4) (q : Quad) : Block :=
  match k with
  | 0 => { b with c0 := q }
  | 1 => { b with c1 := q }
  | 2 => { b with c2 := q }
  | 3 => { b with c3 := q }

/-- The block whose column `k` is `f k`. -/
def Block.ofColumns (f : Fin 4 → Quad) : Block := ⟨f 0, f 1, f 2, f 3⟩

/-- `s[r][c]`: the byte at row `r`, column `c` of the State (R14). -/
def Block.cell (s : Block) (r c : Fin 4) : Byte := (s.column c).get r

/-- The State whose byte at row `r`, column `c` is `f r c`. -/
def Block.ofCells (f : Fin 4 → Fin 4 → Byte) : Block :=
  Block.ofColumns fun c => Quad.ofFn fun r => f r c

/-- `B[n]`: byte `n` of a block, row `n mod 4`, column `n div 4` (R14: `s[r][c] = s[r + 4*c]`). -/
def Block.byte (b : Block) (n : Fin 16) : Byte :=
  b.cell ⟨n.val % 4, by omega⟩ ⟨n.val / 4, by omega⟩

/-- The block whose byte `n` is `f n`. -/
def Block.ofBytes (f : Fin 16 → Byte) : Block :=
  ⟨⟨f 0, f 1, f 2, f 3⟩, ⟨f 4, f 5, f 6, f 7⟩, ⟨f 8, f 9, f 10, f 11⟩, ⟨f 12, f 13, f 14, f 15⟩⟩

/-- `f` applied to each of the 16 bytes. -/
def Block.map (f : Byte → Byte) (b : Block) : Block :=
  ⟨b.c0.map f, b.c1.map f, b.c2.map f, b.c3.map f⟩

/-- `a ^ b` on blocks: bytewise XOR (R67, R13). -/
def Block.xor (a b : Block) : Block :=
  ⟨a.c0.xor b.c0, a.c1.xor b.c1, a.c2.xor b.c2, a.c3.xor b.c3⟩

/-- The 16 bytes of a block in order. -/
def Block.toBytes (b : Block) : List Byte :=
  [b.c0.b0, b.c0.b1, b.c0.b2, b.c0.b3, b.c1.b0, b.c1.b1, b.c1.b2, b.c1.b3,
   b.c2.b0, b.c2.b1, b.c2.b2, b.c2.b3, b.c3.b0, b.c3.b1, b.c3.b2, b.c3.b3]

/-- The block of the first 16 bytes of a list, zero bytes where the list is shorter. -/
def Block.ofList (p : List Byte) : Block := Block.ofBytes fun n => p.getD n.val 0

/-- `B[4k] || B[4k+1] || B[4k+2] || B[4k+3]`: the byte with the lowest index in the most significant bits (R46). -/
def Quad.pack (q : Quad) : Word := q.b0 ++ q.b1 ++ q.b2 ++ q.b3

/-- The four bytes of a register value, bits [31:24] first (R46). -/
def Quad.unpack (v : Word) : Quad :=
  ⟨v.extractLsb' 24 8, v.extractLsb' 16 8, v.extractLsb' 8 8, v.extractLsb' 0 8⟩

/-- `Pack(B, k)` (R46). -/
def pack (b : Block) (k : Fin 4) : Word := (b.column k).pack

/-- `B[4k .. 4k+3] <- Unpack(v, k)` (R46). -/
def unpack (b : Block) (v : Word) (k : Fin 4) : Block := b.setColumn k (Quad.unpack v)

/-- The block whose four registers hold `x0`, `x1`, `x2`, `x3` (R46). -/
def Block.ofRegs (x0 x1 x2 x3 : Word) : Block :=
  ⟨Quad.unpack x0, Quad.unpack x1, Quad.unpack x2, Quad.unpack x3⟩

end Sys2Proof
end

