-- ==== Sys2Proof/Machine/Field.lean ====
section
/-! DEFINITION. Machine/Field.lean: GF(2^8) arithmetic of 40_tables.md: doubling (R68) and multiplication (R69). -/

namespace Sys2Proof

/-- `xtime(x)`: the 9-bit value `x << 1`, XORed with 0x11B when bit 7 of `x` is set, low 8 bits (R68). -/
def xtime (x : Byte) : Byte :=
  let t : BitVec 9 := x.setWidth 9 <<< 1
  if x.getLsbD 7 then (t ^^^ 0x11B#9).setWidth 8 else t.setWidth 8

/-- One pass of the loop of `gmul` (R69) on `(p, a)`. -/
def gmulStep (b : Byte) (pa : Byte × Byte) (i : Nat) : Byte × Byte :=
  (if b.getLsbD i then pa.1 ^^^ pa.2 else pa.1, xtime pa.2)

/-- `gmul(a, b)`: multiplication in GF(2^8) modulo 0x11B (R69). -/
def gmul (a b : Byte) : Byte := ([0, 1, 2, 3, 4, 5, 6, 7].foldl (gmulStep b) (0, a)).1

/-- `m2(x) = xtime(x)` (42_cipher_core.md R88). -/
def m2 (x : Byte) : Byte := xtime x

/-- `m3(x) = xtime(x) ^ x` (42_cipher_core.md R88). -/
def m3 (x : Byte) : Byte := xtime x ^^^ x

end Sys2Proof
end

