-- ==== Sys2Proof/Machine/Tables.lean ====
section
/-! DEFINITION. Machine/Tables.lean: the S-box (40_tables.md R70), its algebraic form for checking (R71), and the round
constants (R73). The values are PRESUMED: the spec marks them as from general knowledge (log 11). -/

namespace Sys2Proof

/-- The rows of the S-box table (R70), high nibble 0 to F, each row's 16 entries from low nibble 0 to F. -/
def sboxRows : List (BitVec 128) :=
  [0x637c777bf26b6fc53001672bfed7ab76, 0xca82c97dfa5947f0add4a2af9ca472c0,
   0xb7fd9326363ff7cc34a5e5f171d83115, 0x04c723c31896059a071280e2eb27b275] ++
  [0x09832c1a1b6e5aa0523bd6b329e32f84, 0x53d100ed20fcb15b6acbbe394a4c58cf,
   0xd0efaafb434d338545f9027f503c9fa8, 0x51a3408f929d38f5bcb6da2110fff3d2] ++
  [0xcd0c13ec5f974417c4a77e3d645d1973, 0x60814fdc222a908846eeb814de5e0bdb,
   0xe0323a0a4906245cc2d3ac629195e479, 0xe7c8376d8dd54ea96c56f4ea657aae08] ++
  [0xba78252e1ca6b4c6e8dd741f4bbd8b8a, 0x703eb5664803f60e613557b986c11d9e,
   0xe1f8981169d98e949b1e87e9ce5528df, 0x8ca1890dbfe6426841992d0fb054bb16]

/-- `S[x]`, entry at row `x[7:4]`, column `x[3:0]` (R70, R72). -/
def sbox (x : Byte) : Byte :=
  (sboxRows.getD (x.toNat / 16) 0).extractLsb' (8 * (15 - x.toNat % 16)) 8

/-- `rotl8(v, n)` (R71). -/
def rotl8 (v : Byte) (n : Nat) : Byte := (v <<< n) ||| (v >>> (8 - n))

/-- The affine map of the S-box's algebraic definition, on `b = inv(a)` (R71). -/
def sboxAffine (b : Byte) : Byte :=
  b ^^^ rotl8 b 1 ^^^ rotl8 b 2 ^^^ rotl8 b 3 ^^^ rotl8 b 4 ^^^ 0x63

/-- The values `Rcon[1], …, Rcon[10]` (R73). -/
def rconValues : List Byte := [0x01, 0x02, 0x04, 0x08, 0x10, 0x20, 0x40, 0x80, 0x1b, 0x36]

/-- `Rcon[j]` for `j = 1..10` (R73). No other index is ever used (R73), and there this answers 0 (log 12). -/
def rcon : Nat → Byte
  | 0 => 0
  | j + 1 => rconValues.getD j 0

end Sys2Proof
end

