-- ==== Sys2Proof/Machine/KeySchedule.lean ====
section
/-! DEFINITION. Machine/KeySchedule.lean: the AES-128 key schedule of 41_key_schedule.md. -/

namespace Sys2Proof

/-- `RotWord([a0, a1, a2, a3]) = [a1, a2, a3, a0]` (R75). -/
def rotWord (q : Quad) : Quad := ⟨q.b1, q.b2, q.b3, q.b0⟩

/-- `SubWord`: every byte through the S-box (R76). -/
def subWord (q : Quad) : Quad := q.map sbox

/-- XOR of the first byte with `Rcon[j]` (R77). -/
def xorRcon (q : Quad) (j : Nat) : Quad := { q with b0 := q.b0 ^^^ rcon j }

/-- `t` of the recurrence for word `i`, from `w[i-1]` (R79): rotation, substitution, constant when `i mod 4 = 0`. -/
def scheduleTemp (i : Nat) (prev : Quad) : Quad :=
  if i % 4 = 0 then xorRcon (subWord (rotWord prev)) (i / 4) else prev

/-- The words `w[0 .. n+3]` of the expansion of `k`, the newest first: `w[i] = w[i-4] ^ t` (R78, R79). -/
def expandWords (k : Block) : Nat → List Quad
  | 0 => [k.c3, k.c2, k.c1, k.c0]
  | n + 1 =>
    let ws := expandWords k n
    (ws.getD 3 Quad.zero).xor (scheduleTemp (n + 4) (ws.getD 0 Quad.zero)) :: ws

/-- `KeyExpansion(K)`: the 44 words `w[0..43]` (R81). -/
def keyExpansion (k : Block) : RoundKeys :=
  Vector.ofFn fun i => (expandWords k 40).getD (43 - i.val) Quad.zero

/-- `RK_k = w[4k] ++ w[4k+1] ++ w[4k+2] ++ w[4k+3]` (R80). -/
def roundKey (rk : RoundKeys) (k : Fin 11) : Block :=
  ⟨rk[4 * k.val], rk[4 * k.val + 1], rk[4 * k.val + 2], rk[4 * k.val + 3]⟩

end Sys2Proof
end

