-- ==== Sys2Proof/Machine/Cipher.lean ====
section
/-! DEFINITION. Machine/Cipher.lean: the AES-128 forward cipher of 42_cipher_core.md. -/

namespace Sys2Proof

/-- Load: `s[n] <- in[n]` (R83). -/
def loadState (inp : Block) : Block := Block.ofBytes inp.byte

/-- Store: `out[n] = s[n]` (R84). -/
def storeState (s : Block) : Block := Block.ofBytes s.byte

/-- AddRoundKey: XOR with round-key block `k` (R85). -/
def addRoundKey (rk : RoundKeys) (s : Block) (k : Fin 11) : Block := s.xor (roundKey rk k)

/-- SubBytes: every byte through the S-box (R86). -/
def subBytes (s : Block) : Block := s.map sbox

/-- ShiftRows: `s'[r][c] = s[r][(c + r) mod 4]` (R87); addition of `Fin 4` is modulo 4. -/
def shiftRows (s : Block) : Block := Block.ofCells fun r c => s.cell r (c + r)

/-- MixColumn of one column (R88). The coefficients are PRESUMED: general knowledge in the spec (log 11). -/
def mixColumn (a : Quad) : Quad :=
  ⟨m2 a.b0 ^^^ m3 a.b1 ^^^ a.b2 ^^^ a.b3,
   a.b0 ^^^ m2 a.b1 ^^^ m3 a.b2 ^^^ a.b3,
   a.b0 ^^^ a.b1 ^^^ m2 a.b2 ^^^ m3 a.b3,
   m3 a.b0 ^^^ a.b1 ^^^ a.b2 ^^^ m2 a.b3⟩

/-- MixColumns: MixColumn of each column (R89). -/
def mixColumns (s : Block) : Block := Block.ofColumns fun c => mixColumn (s.column c)

/-- A full round `q`, for `q = 1..9` (R90). -/
def fullRound (rk : RoundKeys) (s : Block) (q : Fin 11) : Block :=
  addRoundKey rk (mixColumns (shiftRows (subBytes s))) q

/-- The final round, without MixColumns (R91, 90_conflicts.md C3). -/
def finalRound (rk : RoundKeys) (s : Block) : Block := addRoundKey rk (shiftRows (subBytes s)) 10

/-- `Cipher(RK, in)` (R92): whitening, rounds 1 to 9, the final round. -/
def cipher (rk : RoundKeys) (inp : Block) : Block :=
  let s0 := addRoundKey rk (loadState inp) 0
  let s9 := ([1, 2, 3, 4, 5, 6, 7, 8, 9] : List (Fin 11)).foldl (fullRound rk) s0
  storeState (finalRound rk s9)

/-- `AES(K, in) = Cipher(KeyExpansion(K), in)` (R92). -/
def aes (k inp : Block) : Block := cipher (keyExpansion k) inp

end Sys2Proof
end

