-- ==== Sys2Proof/Syntax.lean ====
section
/-! DEFINITION. Syntax.lean: the seven host commands of 30_encoding.md R58, one constructor for each row of
spec/opcode_table.json. -/

namespace Sys2Proof

/-- A decoded command (30_encoding.md R58). Every operand but LEN is implicit (R59). -/
inductive Instr where
  /-- `NOP` (44_commands.md R109). -/
  | nop
  /-- `KEYEXP`, key expansion (R110). -/
  | keyexp
  /-- `ENC`, one block encryption (R111). -/
  | enc
  /-- `OFB_INIT`, open a message (R112). -/
  | ofbInit
  /-- `OFB_BLOCK`, one full OFB block (R113). -/
  | ofbBlock
  /-- `OFB_FINAL #r`, the partial final block, `len` the field LEN (R114, R59). -/
  | ofbFinal (len : BitVec 4)
  /-- `CLEAR`, zeroise (R115). -/
  | clear
deriving DecidableEq, Repr

end Sys2Proof
end

