-- ==== Sys2Proof/Machine/HostSyntax.lean ====
section
/-! DEFINITION. Machine/HostSyntax.lean: the data the world outside the block is made of: bus accesses and their
responses (20_memory.md R43), the registers of the window (R42), the error codes (60_exceptions.md R121), the lines
of a host program (30_encoding.md R65) and its pseudo-instructions (R66), and the events of a run (00_scope.md R16). -/

namespace Sys2Proof

/-- `size` of an access in bytes: 1, 2 or 4 (20_memory.md R43). -/
inductive AccessSize where
  | one
  | two
  | four
deriving DecidableEq, Repr

/-- `kind` of an access, a write with its 32-bit `wdata` (20_memory.md R43). -/
inductive AccessKind where
  | read
  | write (wdata : Word)
deriving DecidableEq, Repr

/-- A host access `(kind, off, size, wdata)`, `off` in 0x00..0x7F (20_memory.md R43). -/
structure Access where
  kind : AccessKind
  off  : BitVec 7
  size : AccessSize
deriving DecidableEq, Repr

/-- `resp` of an access (20_memory.md R43). -/
inductive Resp where
  | okay
  | error
deriving DecidableEq, Repr

/-- What an access returns: `(resp, rdata)` (20_memory.md R43). -/
structure Response where
  resp  : Resp
  rdata : Word
deriving DecidableEq, Repr

/-- The registers of the window (20_memory.md R42); `k` is the number of the 32-bit part. -/
inductive Reg where
  | cmd
  | status
  | ien
  | key (k : Fin 4)
  | iv (k : Fin 4)
  | din (k : Fin 4)
  | dout (k : Fin 4)
  | reserved
deriving DecidableEq, Repr

/-- The host-protocol errors (60_exceptions.md R121). -/
inductive HostError where
  /-- A CMD write of a word that decodes as Illegal. -/
  | illegalCmd
  /-- A write to CMD, KEY, IV or DIN while BUSY = 1. -/
  | busy
  /-- ENC, OFB_BLOCK or OFB_FINAL issued while KEY_VALID = 0. -/
  | noKey
  /-- OFB_BLOCK or OFB_FINAL issued while CHAIN_VALID = 0. -/
  | noChain
  /-- OFB_FINAL issued with LEN = 0. -/
  | badLen
deriving DecidableEq, Repr

/-- The 16-byte registers the pseudo-instructions WRBLK and RDBLK name (30_encoding.md R66). -/
inductive BlockReg where
  | key
  | iv
  | din
  | dout
deriving DecidableEq, Repr

/-- A line of a host program (30_encoding.md R65). A register is written as its offset, `tN` as its number, a label
as a natural number (log 17). -/
inductive HostLine where
  /-- `WR REG, imm32`. -/
  | wr (off : BitVec 7) (imm : Word)
  /-- `RD REG -> tN`. -/
  | rd (off : BitVec 7) (t : Fin 8)
  /-- `label:`. -/
  | label (name : Nat)
  /-- `BNZ tN, mask, label`. -/
  | bnz (t : Fin 8) (mask : Word) (name : Nat)
  /-- `BZ tN, mask, label`. -/
  | bz (t : Fin 8) (mask : Word) (name : Nat)
  /-- `CHK tN, imm32`. -/
  | chk (t : Fin 8) (imm : Word)
deriving DecidableEq, Repr

/-- A pseudo-instruction of the host notation (30_encoding.md R66). -/
inductive PseudoLine where
  /-- `ISSUE op` or `ISSUE OFB_FINAL #r`. -/
  | issue (i : Instr)
  /-- `WAIT`, with the fresh label it uses. -/
  | wait (fresh : Nat)
  /-- `WRBLK X, b0 .. b15`. -/
  | wrblk (x : BlockReg) (b : Block)
  /-- `RDBLK X -> ta, tb, tc, td`. -/
  | rdblk (x : BlockReg) (ta tb tc td : Fin 8)
  /-- `CLRST`. -/
  | clrst
  /-- `RUN op`, with the fresh label its WAIT uses. -/
  | run (i : Instr) (fresh : Nat)
deriving DecidableEq, Repr

/-- What can happen next in a run (00_scope.md R16, 20_memory.md R51, 70_reset_and_hazards.md R132). -/
inductive Event where
  /-- The engine takes its step, if it has one (44_commands.md R107). -/
  | engine
  /-- The host program runs its next line (30_encoding.md R65). -/
  | program
  /-- An access of some bus master reaches the port (20_memory.md R43, R51). -/
  | bus (a : Access)
  /-- The input `rst` goes to 1 (70_reset_and_hazards.md R132). -/
  | assertReset
  /-- The input `rst` goes to 0. -/
  | releaseReset
deriving DecidableEq, Repr

end Sys2Proof
end

