-- ==== Sys2Proof/Machine/State.lean ====
section
/-! DEFINITION. Machine/State.lean: the state of one instance, every element of 10_state.md R17, with the world
outside the block beside it (`Env`); the reasons a step can stop; the state after reset (70_reset_and_hazards.md
R133). -/

namespace Sys2Proof.Machine

/-- Why a run ends with a fault. The block itself never faults (60_exceptions.md R120): every fault is the host
program's, and each is safe (the model goes on where it does not stop). -/
inductive Fault where
  /-- A WR or RD line got the response ERROR: the program stops with the outcome BusError (30_encoding.md R65,
  93_implementation_defined.md P8). Raised by `runLine`. Safe (log 6). -/
  | busError
  /-- A CHK line found another value: the program fails (30_encoding.md R65). Raised by `runLine`. Safe (log 6). -/
  | checkFailed
  /-- A BNZ or BZ line was to continue at a label no line defines, which the notation gives no meaning
  (30_encoding.md R65). Raised by `runLine`. Safe (log 7). -/
  | unknownLabel
deriving DecidableEq, Repr

/-- Why a run has no meaning in this model. -/
inductive Refusal where
  /-- A command without a meaning yet. No arm of `exec` answers it. Safe. -/
  | notModelled (mnemonic : String)
  /-- An access was issued while `rst` is asserted: the platform must not issue one and the block gives no response
  (70_reset_and_hazards.md R132; 93_implementation_defined.md P9 `refuse`). Raised by `portAccess`. Safe (log 5). -/
  | accessDuringReset
deriving DecidableEq, Repr

/-- The host agent's program (30_encoding.md R65): its lines, the index of the next one, the temporaries `t0..t7`,
and the values its RD lines returned so far, in order (70_reset_and_hazards.md R144). -/
structure HostAgent where
  program : List HostLine
  pc      : Nat
  temps   : Vector Word 8
  results : List Word
deriving DecidableEq, Repr

/-- The world outside the block: the level of the pin `rst` (70_reset_and_hazards.md R132), the events still to come
(log 3), the port's last response (20_memory.md R43), and the host program's agent. -/
structure Env where
  rst      : Bool
  script   : List Event
  response : Option Response
  host     : HostAgent
deriving DecidableEq, Repr

/-- The state of one instance (10_state.md R17), field by field, and the environment. STATUS.BUSY is not stored: it
is `PENDING != none` (R22, `State.busy`). -/
structure State where
  /-- CMD_LAST, the last accepted command word (R20). -/
  cmdLast     : Word
  /-- STATUS.DONE (R23). -/
  done        : Bool
  /-- STATUS.KEY_VALID (R24). -/
  keyValid    : Bool
  /-- STATUS.CHAIN_VALID (R25). -/
  chainValid  : Bool
  /-- STATUS.ERR (R26). -/
  err         : Bool
  /-- STATUS.ERR_CODE (R26). -/
  errCode     : BitVec 4
  /-- IEN.DONE_IE (R27). -/
  doneIe      : Bool
  /-- IEN.ERR_IE (R27). -/
  errIe       : Bool
  /-- KEY, the cipher key (R28). -/
  key         : Block
  /-- IV, the initialization vector (R29). -/
  iv          : Block
  /-- DIN, the input block (R30). -/
  din         : Block
  /-- DOUT, the output block (R31). -/
  dout        : Block
  /-- RK, the round key schedule `w[0..43]` (R32). -/
  rk          : RoundKeys
  /-- STATE, the cipher State (R33). -/
  cipherState : Block
  /-- CHAIN, the chaining register (R34). -/
  chain       : Block
  /-- KS, the last keystream block (R35). -/
  ks          : Block
  /-- PENDING, nothing or one decoded command (R36). -/
  pending     : Option Instr
  /-- The world outside the block; no state of the block. -/
  env         : Env
deriving DecidableEq, Repr

/-- The environment before anything happens: `rst` released, no events, no response, no host program (log 3, 4, 8,
19). -/
def Env.initial : Env :=
  { rst := false, script := [], response := none,
    host := { program := [], pc := 0, temps := Vector.replicate 8 0, results := [] } }

/-- The machine right after reset: every element at the reset value of 10_state.md R17 (70_reset_and_hazards.md
R133). -/
def State.reset : State :=
  { cmdLast := 0x00000000, done := false, keyValid := false, chainValid := false, err := false, errCode := 0x0,
    doneIe := false, errIe := false, key := Block.zero, iv := Block.zero, din := Block.zero, dout := Block.zero,
    rk := RoundKeys.zero, cipherState := Block.zero, chain := Block.zero, ks := Block.zero, pending := none,
    env := Env.initial }

end Sys2Proof.Machine
end

