-- ==== Sys2Proof/Machine/Flags.lean ====
section
/-! DEFINITION. Machine/Flags.lean: the STATUS bits and the error codes as the host reads them (10_state.md R21 to
R26), the interrupt enables (R27) and the output `irq` (60_exceptions.md R127). No datapath function writes a flag
(R38). -/

namespace Sys2Proof.Machine

/-- The code of an error, as STATUS.ERR_CODE records it (60_exceptions.md R121). -/
def errorCode : HostError → BitVec 4
  | .illegalCmd => 0x1
  | .busy => 0x2
  | .noKey => 0x3
  | .noChain => 0x4
  | .badLen => 0x5

/-- STATUS.BUSY: `BUSY = (PENDING != none)` (10_state.md R22). -/
def State.busy (s : State) : Bool := s.pending.isSome

/-- A read of STATUS: `zext_32(ERR_CODE || 0b000 || ERR || CHAIN_VALID || KEY_VALID || DONE || BUSY)` (10_state.md
R21). -/
def statusWord (s : State) : Word :=
  (s.errCode ++ 0#3 ++ BitVec.ofBool s.err ++ BitVec.ofBool s.chainValid ++ BitVec.ofBool s.keyValid ++
    BitVec.ofBool s.done ++ BitVec.ofBool s.busy).setWidth 32

/-- A read of IEN: `zext_32(ERR_IE || DONE_IE)` (10_state.md R27). -/
def ienWord (s : State) : Word := (BitVec.ofBool s.errIe ++ BitVec.ofBool s.doneIe).setWidth 32

/-- `irq = (STATUS.DONE & IEN.DONE_IE) | (STATUS.ERR & IEN.ERR_IE)` (60_exceptions.md R127). -/
def irq (s : State) : Bool := (s.done && s.doneIe) || (s.err && s.errIe)

end Sys2Proof.Machine
end

