-- ==== Sys2Proof/Config.lean ====
section
/-! DEFINITION. Config.lean: what the spec leaves OPEN, as constants without a body (93_implementation_defined.md P1
and P2). No rule depends on their values, and nothing in the model evaluates them. -/

namespace Sys2Proof

/-- `BASE`, the byte address at which the platform places the register window (00_scope.md R11, 20_memory.md R41):
OPEN, so a free constant (log 9). -/
opaque Config.base : Nat

/-- The free part of `LAT_MAX`: `LAT_MAX - 1` (log 2). -/
opaque Config.latMaxPred : Nat

/-- The free part of `LAT(op)`, one natural number for each 4-bit opcode (log 2). -/
opaque Config.latChoice : BitVec 4 → Nat

/-- `LAT_MAX`, a finite bound, at least 1 (00_scope.md R11). -/
def Config.latMax : Nat := Config.latMaxPred + 1

/-- `LAT(op)` with `1 <= LAT(op) <= LAT_MAX`, depending on the opcode only (70_reset_and_hazards.md R140, R141).
Every function within the bound arises from some choice of the free constants. -/
def Config.lat (op : BitVec 4) : Nat := Config.latChoice op % Config.latMax + 1

end Sys2Proof
end

