-- ==== Sys2Proof/Decode.lean ====
section
/-! DEFINITION. Decode.lean: the decoder of the command word, total on all 32-bit words (30_encoding.md R60), and
after it the encoder `CMDWORD` (R57) and the opcode table's match and mask (R58). -/

namespace Sys2Proof

/-- Why a word is Illegal: the three kinds of 30_encoding.md R61. -/
inductive IllegalWord where
  /-- R61 (a): OP is 0x7 to 0xF. -/
  | reservedOpcode
  /-- R61 (b): a 1 in bits [7:4] or [31:12]. -/
  | reservedBits
  /-- R61 (c): LEN is not 0 on an opcode other than OFB_FINAL. -/
  | lengthNotAllowed
deriving DecidableEq, Repr

/-- Field OP, bits 3:0 (R57). -/
def opField (w : Word) : BitVec 4 := w.extractLsb' 0 4

/-- Field LEN, bits 11:8 (R57). -/
def lenField (w : Word) : BitVec 4 := w.extractLsb' 8 4

/-- Bits 7:4, reserved (R57). -/
def reservedLow (w : Word) : BitVec 4 := w.extractLsb' 4 4

/-- Bits 31:12, reserved (R57). -/
def reservedHigh (w : Word) : BitVec 20 := w.extractLsb' 12 20

/-- The opcode map (R58): the command of an opcode, LEN an operand of OFB_FINAL only. -/
def commandOf (op len : BitVec 4) : Except IllegalWord Instr :=
  match op.toNat with
  | 0x0 => .ok .nop
  | 0x1 => .ok .keyexp
  | 0x2 => .ok .enc
  | 0x3 => .ok .ofbInit
  | 0x4 => .ok .ofbBlock
  | 0x5 => .ok (.ofbFinal len)
  | 0x6 => .ok .clear
  | _ => .error .reservedOpcode

/-- `Decode(word)` (R60), with the reason of an Illegal word kept. -/
def decode (w : Word) : Except IllegalWord Instr :=
  if reservedHigh w ≠ 0 ∨ reservedLow w ≠ 0 then .error .reservedBits
  else if 0x7 ≤ (opField w).toNat then .error .reservedOpcode
  else if opField w ≠ 0x5 ∧ lenField w ≠ 0 then .error .lengthNotAllowed
  else commandOf (opField w) (lenField w)

/-- The command a word decodes to, none where it is Illegal. -/
def decode? (w : Word) : Option Instr :=
  match decode w with
  | .ok i => some i
  | .error _ => none

/-- The decoder on a word numbered as spec/opcode_table.json numbers it. A command is exactly one 32-bit word (R62):
bits above `nbits` are 0, and a row of more than 32 bits is no command. -/
def decodeTableWord (nbits w : Nat) : Option Instr :=
  if nbits ≤ 32 then decode? (BitVec.ofNat 32 (w % 2 ^ nbits)) else none

/-- The opcode of a command (R58). -/
def Instr.opcode : Instr → BitVec 4
  | .nop => 0x0
  | .keyexp => 0x1
  | .enc => 0x2
  | .ofbInit => 0x3
  | .ofbBlock => 0x4
  | .ofbFinal _ => 0x5
  | .clear => 0x6

/-- The LEN field of a command, 0 for every opcode but OFB_FINAL (R57). -/
def Instr.len : Instr → BitVec 4
  | .ofbFinal len => len
  | .nop | .keyexp | .enc | .ofbInit | .ofbBlock | .clear => 0

/-- `CMDWORD(op, len) = zext_32(len[3:0] || 0b0000 || op[3:0])` (R57). -/
def cmdWord (op len : BitVec 4) : Word := (len ++ 0#4 ++ op).setWidth 32

/-- The command word of a command (R57, R58). -/
def encode (i : Instr) : Word := cmdWord i.opcode i.len

/-- The match value of the command's row of the opcode map (R58). -/
def Instr.rowMatch : Instr → Word
  | .nop => 0x00000000
  | .keyexp => 0x00000001
  | .enc => 0x00000002
  | .ofbInit => 0x00000003
  | .ofbBlock => 0x00000004
  | .ofbFinal _ => 0x00000005
  | .clear => 0x00000006

/-- The mask of the command's row of the opcode map (R58). -/
def Instr.rowMask : Instr → Word
  | .ofbFinal _ => 0xFFFFF0FF
  | .nop | .keyexp | .enc | .ofbInit | .ofbBlock | .clear => 0xFFFFFFFF

end Sys2Proof
end

