-- ==== Sys2Proof/Machine/Operands.lean ====
section
/-! DEFINITION. Machine/Operands.lean: the operand forms. A command carries LEN (30_encoding.md R59); its other
operands are fixed registers. A host access names a register by its offset in the window (20_memory.md R42). -/

namespace Sys2Proof.Machine

/-- `r = zext(word[11:8])`: LEN as an unsigned number (30_encoding.md R59). -/
def lenValue (len : BitVec 4) : Nat := len.toNat

/-- The commands that read RK (60_exceptions.md R122: `d.op in {ENC, OFB_BLOCK, OFB_FINAL}`). -/
def needsKey : Instr → Bool
  | .enc | .ofbBlock | .ofbFinal _ => true
  | .nop | .keyexp | .ofbInit | .clear => false

/-- The commands that read CHAIN (60_exceptions.md R122: `d.op in {OFB_BLOCK, OFB_FINAL}`). -/
def needsChain : Instr → Bool
  | .ofbBlock | .ofbFinal _ => true
  | .nop | .keyexp | .enc | .ofbInit | .clear => false

/-- The register at an aligned offset (20_memory.md R42). -/
def regAt (off : BitVec 7) : Reg :=
  match off.toNat / 4 with
  | 0 => .cmd
  | 1 => .status
  | 2 => .ien
  | 4 => .key 0
  | 5 => .key 1
  | 6 => .key 2
  | 7 => .key 3
  | 8 => .iv 0
  | 9 => .iv 1
  | 10 => .iv 2
  | 11 => .iv 3
  | 12 => .din 0
  | 13 => .din 1
  | 14 => .din 2
  | 15 => .din 3
  | 16 => .dout 0
  | 17 => .dout 1
  | 18 => .dout 2
  | 19 => .dout 3
  | _ => .reserved

/-- The offset of part `k` of a 16-byte register (20_memory.md R42). -/
def BlockReg.offset (x : BlockReg) (k : Fin 4) : BitVec 7 :=
  match x with
  | .key => BitVec.ofNat 7 (0x10 + 4 * k.val)
  | .iv => BitVec.ofNat 7 (0x20 + 4 * k.val)
  | .din => BitVec.ofNat 7 (0x30 + 4 * k.val)
  | .dout => BitVec.ofNat 7 (0x40 + 4 * k.val)

/-- The platform routes to the window the addresses BASE to BASE + 0x7F (20_memory.md R41). -/
def routed (base addr : Nat) : Bool := base ≤ addr && addr < base + 0x80

/-- The block decodes address bits [6:0] of a routed access as the offset (20_memory.md R41). -/
def offsetOfAddress (addr : Nat) : BitVec 7 := BitVec.ofNat 7 addr

/-- A `size`-byte access to a byte address of the platform, as the block sees it: none where the platform does not
route it to the window (20_memory.md R41; `base` is BASE, `Config.base` in the platform's own map). -/
def accessAt (base addr : Nat) (kind : AccessKind) (size : AccessSize) : Option Access :=
  if routed base addr then some { kind, off := offsetOfAddress addr, size } else none

/-- An access to a byte address of this platform, whose window is at BASE (00_scope.md R11, 20_memory.md R41). -/
def platformAccess (addr : Nat) (kind : AccessKind) (size : AccessSize) : Option Access :=
  accessAt Config.base addr kind size

end Sys2Proof.Machine
end

