-- ==== Sys2Proof/WellFormed.lean ====
section
/-! DEFINITION. WellFormed.lean: the checks on syntax. A command's operand is in its legal range (30_encoding.md
R59), an access is one the block accepts (20_memory.md R43), a host program's branches have their labels
(30_encoding.md R65) and a pseudo-instruction names a register it may name (R66). -/

namespace Sys2Proof

/-- LEN of OFB_FINAL is legal in 1..15 (30_encoding.md R59); every other command has no operand. -/
def Instr.wellFormed : Instr → Bool
  | .ofbFinal len => len != 0
  | .nop | .keyexp | .enc | .ofbInit | .ofbBlock | .clear => true

/-- The block accepts only `size = 4` with `off[1:0] = 0b00` (20_memory.md R43). -/
def Access.wellFormed (a : Access) : Bool :=
  a.size == .four && a.off.extractLsb' 0 2 == 0

/-- The label a line defines. -/
def HostLine.defines? : HostLine → Option Nat
  | .label name => some name
  | .wr _ _ | .rd _ _ | .bnz _ _ _ | .bz _ _ _ | .chk _ _ => none

/-- The label a line branches to. -/
def HostLine.target? : HostLine → Option Nat
  | .bnz _ _ name | .bz _ _ name => some name
  | .wr _ _ | .rd _ _ | .label _ | .chk _ _ => none

/-- Every label a branch names is defined by a line (30_encoding.md R65; log 7), and no label is defined twice (DESIGN
CHOICE: R65 says nothing of a label on two lines, log 21). -/
def HostProgram.wellFormed (p : List HostLine) : Bool :=
  let labels := p.filterMap HostLine.defines?
  (p.filterMap HostLine.target?).all labels.contains && decide labels.Nodup

/-- WRBLK is for X in KEY, IV, DIN and RDBLK for X in IV, DIN, DOUT (30_encoding.md R66). -/
def PseudoLine.wellFormed : PseudoLine → Bool
  | .wrblk x _ => x != .dout
  | .rdblk x _ _ _ _ => x != .key
  | .issue _ | .wait _ | .clrst | .run _ _ => true

end Sys2Proof
end

