-- ==== Sys2Proof/Machine/Ops.lean ====
section
/-! DEFINITION. Machine/Ops.lean: the named operations every step is made of: recording an error and clearing it (the
block's "trap entry" and "trap return"), checking, accepting and retiring a command, the writes of each register, the
read of each register, and reset. -/

namespace Sys2Proof.Machine

/-- `raise Error(e)`, the block's "trap entry" (60_exceptions.md R124): ERR and ERR_CODE take the error when ERR = 0,
and nothing else changes. The first error is kept (10_state.md R26, R125). -/
def raiseError (e : HostError) (s : State) : State :=
  if s.err then s else { s with err := true, errCode := errorCode e }

/-- The block's "trap return" (60_exceptions.md R125): a STATUS write with bit 4 = 1 sets ERR and ERR_CODE to 0
(44_commands.md R119). -/
def clearError (s : State) : State := { s with err := false, errCode := 0x0 }

/-- Write to STATUS (44_commands.md R119): bit 1 clears DONE, bit 4 clears the error; the other bits are ignored. -/
def writeStatus (v : Word) (s : State) : State :=
  let s1 := if v.getLsbD 1 then { s with done := false } else s
  if v.getLsbD 4 then clearError s1 else s1

/-- Write to IEN (10_state.md R27). -/
def writeIen (v : Word) (s : State) : State := { s with doneIe := v.getLsbD 0, errIe := v.getLsbD 1 }

/-- The part of `CheckCmd` that depends on the decoded command: BAD_LEN, then NO_KEY, then NO_CHAIN (60_exceptions.md
R122, R123). -/
def checkDecoded (i : Instr) (s : State) : Option HostError :=
  if !i.wellFormed then some .badLen
  else if needsKey i && !s.keyValid then some .noKey
  else if needsChain i && !s.chainValid then some .noChain
  else none

/-- `CheckCmd(v)` (60_exceptions.md R122), in the priority of R123. -/
def checkCmd (v : Word) (s : State) : Option HostError :=
  if s.busy then some .busy
  else
    match decode v with
    | .error _ => some .illegalCmd
    | .ok i => checkDecoded i s

/-- `CheckOperandWrite()` (60_exceptions.md R122). -/
def checkOperandWrite (s : State) : Option HostError := if s.busy then some .busy else none

/-- `Accept(v)` (44_commands.md R106). -/
def accept (v : Word) (s : State) : State := { s with cmdLast := v, pending := decode? v, done := false }

/-- Write to CMD (44_commands.md R105). -/
def writeCmd (v : Word) (s : State) : State :=
  match checkCmd v s with
  | some e => raiseError e s
  | none => accept v s

/-- The part of `Complete()` after `Execute` (44_commands.md R107): PENDING <- none, so BUSY = 0, and DONE <- 1. -/
def retire (s : State) : State := { s with pending := none, done := true }

/-- An accepted operand write `f`, or the error of `CheckOperandWrite` (44_commands.md R116 to R118). -/
def operandWrite (f : State → State) (s : State) : State :=
  match checkOperandWrite s with
  | some e => raiseError e s
  | none => f s

/-- An accepted write of KEYk: the key bytes change, the schedule is invalid, the message is closed (44_commands.md
R116). -/
def setKey (k : Fin 4) (v : Word) (s : State) : State :=
  { s with key := unpack s.key v k, keyValid := false, chainValid := false }

/-- An accepted write of IVk (44_commands.md R117). -/
def setIv (k : Fin 4) (v : Word) (s : State) : State := { s with iv := unpack s.iv v k }

/-- An accepted write of DINk (44_commands.md R118). -/
def setDin (k : Fin 4) (v : Word) (s : State) : State := { s with din := unpack s.din v k }

/-- Write to KEYk (44_commands.md R116). -/
def writeKey (k : Fin 4) (v : Word) (s : State) : State := operandWrite (setKey k v) s

/-- Write to IVk (44_commands.md R117). -/
def writeIv (k : Fin 4) (v : Word) (s : State) : State := operandWrite (setIv k v) s

/-- Write to DINk (44_commands.md R118). -/
def writeDin (k : Fin 4) (v : Word) (s : State) : State := operandWrite (setDin k v) s

/-- The "read returns" column of the register map (20_memory.md R42). -/
def readReg (r : Reg) (s : State) : Word :=
  match r with
  | .cmd => s.cmdLast
  | .status => statusWord s
  | .ien => ienWord s
  | .key _ => 0x00000000
  | .iv k => pack s.iv k
  | .din k => pack s.din k
  | .dout k => pack s.dout k
  | .reserved => 0x00000000

/-- The "write does" column of the register map (20_memory.md R42); DOUT and reserved offsets ignore it (R44). -/
def writeReg (r : Reg) (v : Word) (s : State) : State :=
  match r with
  | .cmd => writeCmd v s
  | .status => writeStatus v s
  | .ien => writeIen v s
  | .key k => writeKey k v s
  | .iv k => writeIv k v s
  | .din k => writeDin k v s
  | .dout _ => s
  | .reserved => s

/-- `BusRead(off)` (20_memory.md R43): it changes no state (R45). -/
def busRead (off : BitVec 7) (s : State) : Word := readReg (regAt off) s

/-- `BusWrite(off, v)` (20_memory.md R43). -/
def busWrite (off : BitVec 7) (v : Word) (s : State) : State := writeReg (regAt off) v s

/-- `HostAccess(kind, off, size, wdata)` (20_memory.md R43): the response and the state after. A narrow or misaligned
access is a bus error: ERROR, no state changed, and for a read rdata 0 (60_exceptions.md R126). DESIGN CHOICE: a write
answered ERROR has rdata 0 too, of which the spec says nothing (log 20). -/
def hostAccess (a : Access) (s : State) : Response × State :=
  if a.wellFormed then
    match a.kind with
    | .read => (⟨.okay, busRead a.off s⟩, s)
    | .write v => (⟨.okay, 0x00000000⟩, busWrite a.off v s)
  else (⟨.error, 0x00000000⟩, s)

/-- The state that `rst` holds the block in: every element of 10_state.md R17 at its reset value, a pending command
abandoned (70_reset_and_hazards.md R133); the world outside stays (log 14). -/
def resetBlock (s : State) : State := { State.reset with env := s.env }

/-- The environment with its pin `rst` at a level. -/
def setRst (level : Bool) (s : State) : State := { s with env := { s.env with rst := level } }

/-- The state with the events still to come replaced. -/
def setScript (es : List Event) (s : State) : State := { s with env := { s.env with script := es } }

/-- The state with the port's last response recorded (log 19). -/
def setResponse (r : Response) (s : State) : State := { s with env := { s.env with response := some r } }

/-- The state with the host agent replaced. -/
def setHost (h : HostAgent) (s : State) : State := { s with env := { s.env with host := h } }

/-- An access at the port: refused while `rst` is asserted (70_reset_and_hazards.md R132, P9), else `HostAccess`, its
response recorded. -/
def portAccess (a : Access) (s : State) : Host.Outcome (Response × State) Fault Refusal :=
  if s.env.rst then .refused .accessDuringReset
  else .next ((hostAccess a s).1, setResponse (hostAccess a s).1 (hostAccess a s).2)

/-- The state with command `i`, the word `v`, placed in PENDING as acceptance leaves it (44_commands.md R106), `rst`
released, and the engine to move next: what it takes for the very next step to run `i` (log 4). -/
def placeCommand (v : Word) (i : Instr) (s : State) : State :=
  { s with cmdLast := v, pending := some i, done := false,
           env := { s.env with rst := false, script := .engine :: s.env.script } }

/-- The state with a write of `v` to CMD as the next event: how the block meets a word that is no command (30_encoding.md
R61, log 4). -/
def placeWrite (v : Word) (s : State) : State :=
  { s with env := { s.env with rst := false, script := .bus ⟨.write v, 0x00, .four⟩ :: s.env.script } }

end Sys2Proof.Machine
end

