-- ==== Sys2Proof/Machine/CipherCommands.lean ====
section
/-! DEFINITION. Machine/CipherCommands.lean: ENC (44_commands.md R111). -/

namespace Sys2Proof.Machine

/-- ENC: `y <- Cipher(RK, DIN)`, `DOUT <- y`, `STATE <- y` (R111). -/
def execEnc (s : State) : Host.Outcome State Fault Refusal :=
  let y := cipher s.rk s.din
  .next (retire { s with dout := y, cipherState := y })

end Sys2Proof.Machine
end

