-- ==== Sys2Proof/Machine/KeyCommands.lean ====
section
/-! DEFINITION. Machine/KeyCommands.lean: KEYEXP (44_commands.md R110). -/

namespace Sys2Proof.Machine

/-- KEYEXP: `RK <- KeyExpansion(KEY)`, `KEY_VALID <- 1` (R110). -/
def execKeyexp (s : State) : Host.Outcome State Fault Refusal :=
  .next (retire { s with rk := keyExpansion s.key, keyValid := true })

end Sys2Proof.Machine
end

