-- ==== Sys2Proof/Machine/Ofb.lean ====
section
/-! DEFINITION. Machine/Ofb.lean: the OFB keystream steps and the message-level function of 43_ofb.md. -/

namespace Sys2Proof

/-- `OFBBlock(RK, X, D)` (R98): the output block and the new chaining register, which is the keystream. -/
def ofbBlockStep (rk : RoundKeys) (x d : Block) : Block × Block :=
  let o := cipher rk x
  (d.xor o, o)

/-- The output of the partial step from the keystream `o` (R99): byte `n` is `D[n] ^ O[n]` for `n < r`, else 0x00. -/
def partialOut (d o : Block) (r : Nat) : Block :=
  Block.ofBytes fun n => if n.val < r then d.byte n ^^^ o.byte n else 0x00

/-- `OFBPartial(RK, X, D, r)` (R99): the output block and the unchanged chaining register. -/
def ofbPartialStep (rk : RoundKeys) (x d : Block) (r : Nat) : Block × Block :=
  (partialOut d (cipher rk x) r, x)

/-- XOR of data bytes with a keystream block, as many bytes as there are data (R95 steps 2 and 3). -/
def xorKeystream (p : List Byte) (o : Block) : List Byte := List.zipWith (· ^^^ ·) p o.toBytes

/-- The loop over `n` full blocks from chaining register `x` (R95 step 2): the ciphertext and the register after. -/
def ofbFullBlocks (e : Block → Block) : Nat → Block → List Byte → List Byte × Block
  | 0, x, _ => ([], x)
  | n + 1, x, p =>
    let o := e x
    let rest := ofbFullBlocks e n o (p.drop 16)
    (xorKeystream (p.take 16) o ++ rest.1, rest.2)

/-- The message function over a block function `e` (R95): full blocks, then the partial block when `r > 0`
(90_conflicts.md C2). -/
def ofbMessage (e : Block → Block) (iv : Block) (p : List Byte) : List Byte :=
  let n := p.length / 16
  let full := ofbFullBlocks e n iv p
  if 0 < p.length % 16 then full.1 ++ xorKeystream (p.drop (16 * n)) (e full.2) else full.1

/-- `OFBTransform(K, IV, P)` (R95). -/
def ofbTransform (k iv : Block) (p : List Byte) : List Byte := ofbMessage (aes k) iv p

/-- `E^j(x)`: the block function applied `j` times (10_state.md R40). -/
def chainAfter (e : Block → Block) : Nat → Block → Block
  | 0, x => x
  | j + 1, x => e (chainAfter e j x)

end Sys2Proof
end

