-- ==== Sys2Proof/Machine/OfbCommands.lean ====
section
/-! DEFINITION. Machine/OfbCommands.lean: OFB_INIT, OFB_BLOCK and OFB_FINAL (44_commands.md R112 to R114). -/

namespace Sys2Proof.Machine

/-- OFB_INIT: `CHAIN <- IV`, `CHAIN_VALID <- 1` (R112). -/
def execOfbInit (s : State) : Host.Outcome State Fault Refusal :=
  .next (retire { s with chain := s.iv, chainValid := true })

/-- OFB_BLOCK: `(out, X') <- OFBBlock(RK, CHAIN, DIN)`; DOUT takes `out`, and KS, CHAIN and STATE take `X'` (R113). -/
def execOfbBlock (s : State) : Host.Outcome State Fault Refusal :=
  let step := ofbBlockStep s.rk s.chain s.din
  .next (retire { s with dout := step.1, ks := step.2, chain := step.2, cipherState := step.2 })

/-- OFB_FINAL #r: the first `r` bytes of DOUT are `DIN ^ O`, the rest 0x00; KS and STATE take `O = Cipher(RK, CHAIN)`;
CHAIN_VALID <- 0; CHAIN is not changed (R114). -/
def execOfbFinal (len : BitVec 4) (s : State) : Host.Outcome State Fault Refusal :=
  let o := cipher s.rk s.chain
  .next (retire
    { s with dout := (ofbPartialStep s.rk s.chain s.din (lenValue len)).1, ks := o, cipherState := o,
             chainValid := false })

end Sys2Proof.Machine
end

