-- ==== Sys2Proof/Machine/SystemCommands.lean ====
section
/-! DEFINITION. Machine/SystemCommands.lean: NOP and CLEAR (44_commands.md R109, R115). A meaning is the completion
step of its command: `Execute`, then PENDING <- none and DONE <- 1 (R107, log 1). -/

namespace Sys2Proof.Machine

/-- NOP: `Execute(NOP) = skip` (R109). -/
def execNop (s : State) : Host.Outcome State Fault Refusal := .next (retire s)

/-- CLEAR: every data register and the schedule to 0x00, KEY_VALID and CHAIN_VALID to 0; IEN, ERR, ERR_CODE and
CMD_LAST stay (R115). -/
def execClear (s : State) : Host.Outcome State Fault Refusal :=
  .next (retire
    { s with key := Block.zero, iv := Block.zero, din := Block.zero, dout := Block.zero, cipherState := Block.zero,
             chain := Block.zero, ks := Block.zero, rk := RoundKeys.zero, keyValid := false, chainValid := false })

end Sys2Proof.Machine
end

