-- ==== Sys2Proof/Machine/Dispatch.lean ====
section
/-! DEFINITION. Machine/Dispatch.lean: one arm for each command; an arm is the command's completion (44_commands.md
R107). -/

namespace Sys2Proof.Machine

def exec (i : Instr) (s : State) : Host.Outcome State Fault Refusal :=
  match i with
  | .nop => Sys2Proof.Machine.execNop s
  | .keyexp => Sys2Proof.Machine.execKeyexp s
  | .enc => Sys2Proof.Machine.execEnc s
  | .ofbInit => Sys2Proof.Machine.execOfbInit s
  | .ofbBlock => Sys2Proof.Machine.execOfbBlock s
  | .ofbFinal len => Sys2Proof.Machine.execOfbFinal len s
  | .clear => Sys2Proof.Machine.execClear s

end Sys2Proof.Machine
end

