-- ==== Sys2Proof/Machine/HostProgram.lean ====
section
/-! DEFINITION. Machine/HostProgram.lean: the host agent (30_encoding.md R65): what one line of a host program does, and
the expansions of the pseudo-instructions (R66). -/

namespace Sys2Proof.Machine

/-- The index of the line `label:` (R65). DESIGN CHOICE: of the first such line where several define the label, of which
R65 says nothing (log 21). -/
def labelIndex (p : List HostLine) (name : Nat) : Option Nat :=
  let n := p.findIdx (fun l => l == .label name)
  if n < p.length then some n else none

/-- Continue at the next line. -/
def nextLine (h : HostAgent) : HostAgent := { h with pc := h.pc + 1 }

/-- Continue at a label if the branch is taken, else at the next line (R65). -/
def branch (taken : Bool) (name : Nat) (s : State) : Host.Outcome State Fault Refusal :=
  if taken then
    match labelIndex s.env.host.program name with
    | some n => .next (setHost { s.env.host with pc := n } s)
    | none => .fault .unknownLabel
  else .next (setHost (nextLine s.env.host) s)

/-- The access of a WR or RD line, and what the line does with its response: a BusError stops the program, and then
an RD sets no temporary (R65). -/
def lineAccess (a : Access) (onOkay : Word → HostAgent → HostAgent) (s : State) :
    Host.Outcome State Fault Refusal :=
  match portAccess a s with
  | .next (r, t) =>
    match r.resp with
    | .okay => .next (setHost (nextLine (onOkay r.rdata t.env.host)) t)
    | .error => .fault .busError
  | .fault f => .fault f
  | .refused f => .refused f

/-- One line of a host program (R65). -/
def runLine (l : HostLine) (s : State) : Host.Outcome State Fault Refusal :=
  match l with
  | .wr off v => lineAccess ⟨.write v, off, .four⟩ (fun _ h => h) s
  | .rd off t =>
    lineAccess ⟨.read, off, .four⟩
      (fun v h => { h with temps := h.temps.set t.val v, results := h.results ++ [v] }) s
  | .label _ => .next (setHost (nextLine s.env.host) s)
  | .bnz t mask name => branch (s.env.host.temps[t] &&& mask != 0) name s
  | .bz t mask name => branch (s.env.host.temps[t] &&& mask == 0) name s
  | .chk t v => if s.env.host.temps[t] = v then .next (setHost (nextLine s.env.host) s) else .fault .checkFailed

/-- The host program's next step: its next line, or nothing once the program has ended (70_reset_and_hazards.md
R144). -/
def runProgram (s : State) : Host.Outcome State Fault Refusal :=
  match s.env.host.program[s.env.host.pc]? with
  | some l => runLine l s
  | none => .next s

/-- The expansion of a pseudo-instruction (R66). -/
def expandPseudo : PseudoLine → List HostLine
  | .issue i => [.wr 0x00 (encode i)]
  | .wait fresh => [.label fresh, .rd 0x04 7, .bnz 7 0x1 fresh]
  | .wrblk x b =>
    [.wr (BlockReg.offset x 0) (pack b 0), .wr (BlockReg.offset x 1) (pack b 1),
     .wr (BlockReg.offset x 2) (pack b 2), .wr (BlockReg.offset x 3) (pack b 3)]
  | .rdblk x ta tb tc td =>
    [.rd (BlockReg.offset x 0) ta, .rd (BlockReg.offset x 1) tb, .rd (BlockReg.offset x 2) tc,
     .rd (BlockReg.offset x 3) td]
  | .clrst => [.wr 0x04 0x00000012]
  | .run i fresh => [.wr 0x00 (encode i), .label fresh, .rd 0x04 7, .bnz 7 0x1 fresh]

end Sys2Proof.Machine
end

