-- ==== Sys2Proof/Machine/Events.lean ====
section
/-! DEFINITION. Machine/Events.lean: what each event of a run does (00_scope.md R16, 20_memory.md R51,
70_reset_and_hazards.md R132), and what happens when no event is listed (log 3). -/

namespace Sys2Proof.Machine

/-- The engine's step (44_commands.md R107): the completion of the pending command; no step while nothing is pending
(10_state.md R36) or while `rst` holds the block (70_reset_and_hazards.md R132). -/
def engineStep (s : State) : Host.Outcome State Fault Refusal :=
  if s.env.rst then .next s
  else
    match s.pending with
    | some i => exec i s
    | none => .next s

/-- An access of some bus master at the port (20_memory.md R43, R51). -/
def busStep (a : Access) (s : State) : Host.Outcome State Fault Refusal :=
  match portAccess a s with
  | .next (_, t) => .next t
  | .fault f => .fault f
  | .refused f => .refused f

/-- One event. -/
def runEvent (e : Event) (s : State) : Host.Outcome State Fault Refusal :=
  match e with
  | .engine => engineStep s
  | .program => runProgram s
  | .bus a => busStep a s
  | .assertReset => .next (setRst true (resetBlock s))
  | .releaseReset => .next (setRst false s)

/-- The step when no event is listed (log 3): a pending command completes first (70_reset_and_hazards.md R143), else
the host program runs on; a block held in reset waits. -/
def defaultStep (s : State) : Host.Outcome State Fault Refusal :=
  if s.env.rst then .next s
  else if s.busy then engineStep s
  else runProgram s

/-- One step of the run: the next listed event, or the default. -/
def nextStep (s : State) : Host.Outcome State Fault Refusal :=
  match s.env.script with
  | e :: rest => runEvent e (setScript rest s)
  | [] => defaultStep s

end Sys2Proof.Machine
end

