-- ==== Sys2Proof/Machine/Step.lean ====
section
/-! DEFINITION. Machine/Step.lean: the step function, and the placing of a command so that the next step runs it. -/

namespace Sys2Proof.Machine

/-- One step of the machine: of the engine, of the host or of the reset pin (00_scope.md R16). -/
def step (s : State) : Host.Outcome State Fault Refusal := nextStep s

/-- `s` with a command word placed so that the very next step runs it: a word that decodes goes to PENDING, where the
engine finds its next command (10_state.md R19, R36); a word that does not is the next write to CMD (log 4). -/
def State.withFetchWord (s : State) (nbits w : Nat) : State :=
  match decodeTableWord nbits w with
  | some i => placeCommand (BitVec.ofNat 32 (w % 2 ^ nbits)) i s
  | none => placeWrite (BitVec.ofNat 32 (w % 2 ^ nbits)) s

end Sys2Proof.Machine
end

