-- ==== Sys2Proof/Machine/Assembly.lean ====
section
/-! DEFINITION. Machine/Assembly.lean: the written form of a command (30_encoding.md R64), as lists of characters:
case-insensitive mnemonics, and `#r` in decimal after OFB_FINAL. -/

namespace Sys2Proof

/-- The mnemonic of a command (R64, R58). -/
def Instr.mnemonic : Instr → List Char
  | .nop => ['N', 'O', 'P']
  | .keyexp => ['K', 'E', 'Y', 'E', 'X', 'P']
  | .enc => ['E', 'N', 'C']
  | .ofbInit => ['O', 'F', 'B', '_', 'I', 'N', 'I', 'T']
  | .ofbBlock => ['O', 'F', 'B', '_', 'B', 'L', 'O', 'C', 'K']
  | .ofbFinal _ => ['O', 'F', 'B', '_', 'F', 'I', 'N', 'A', 'L']
  | .clear => ['C', 'L', 'E', 'A', 'R']

/-- The decimal digit of a number below 10. -/
def digitChar (n : Nat) : Char := Char.ofNat (48 + n)

/-- The decimal form of LEN. -/
def lenDigits (len : BitVec 4) : List Char :=
  if len.toNat < 10 then [digitChar len.toNat] else ['1', digitChar (len.toNat - 10)]

/-- A command as it is written (R64). -/
def Instr.render (i : Instr) : List Char :=
  match i with
  | .ofbFinal len => i.mnemonic ++ [' ', '#'] ++ lenDigits len
  | .nop | .keyexp | .enc | .ofbInit | .ofbBlock | .clear => i.mnemonic

/-- A letter as its capital: mnemonics are case-insensitive (R64). -/
def upperChar (c : Char) : Char :=
  if 97 ≤ c.toNat ∧ c.toNat ≤ 122 then Char.ofNat (c.toNat - 32) else c

/-- Reads a LEN in 0..15, in decimal (R64: `#0` is spellable). -/
def parseLen (cs : List Char) : Option (BitVec 4) :=
  (List.range 16).findSome? fun n =>
    if lenDigits (BitVec.ofNat 4 n) = cs then some (BitVec.ofNat 4 n) else none

/-- Reads a written command (R64). -/
def parseCommand (cs : List Char) : Option Instr :=
  let up := cs.map upperChar
  match [Instr.nop, .keyexp, .enc, .ofbInit, .ofbBlock, .clear].find? (fun i => i.mnemonic == up) with
  | some i => some i
  | none =>
    let lead := (Instr.ofbFinal 0).mnemonic ++ [' ', '#']
    if lead.isPrefixOf up then (parseLen (up.drop lead.length)).map .ofbFinal else none

end Sys2Proof
end

