-- ==== Sys2Proof/Machine/Timed.lean ====
section
/-! DEFINITION. Machine/Timed.lean: the block with a clock (70_reset_and_hazards.md R132, R140, R141): one cycle at a
time, for a latency function that depends on the opcode only. The cycle counter is the hidden state of 10_state.md
R37; no host-readable register shows it. -/

namespace Sys2Proof.Machine

/-- The block with the hidden counter of cycles since acceptance (10_state.md R37). DESIGN CHOICE: its idle value, which
reset (70_reset_and_hazards.md R133), a completion and an acceptance give it, is 0 (log 22). -/
structure TimedState where
  state   : State
  elapsed : Nat
deriving DecidableEq, Repr

/-- The inputs of one clock cycle: the pin `rst`, sampled on the clock (R132), and the cycle's access at the port.
DESIGN CHOICE: at most one access a cycle, a number the spec does not give (20_memory.md R51, R52 order the accesses
only; log 23). -/
structure CycleInput where
  rst    : Bool
  access : Option Access
deriving DecidableEq, Repr

/-- The engine's part of a cycle: the pending command completes `LAT(op)` cycles after the cycle of its acceptance
(R140). -/
def timedEngine (lat : BitVec 4 → Nat) (t : TimedState) : Host.Outcome TimedState Fault Refusal :=
  match t.state.pending with
  | none => .next t
  | some i =>
    if t.elapsed + 1 < lat i.opcode then .next { t with elapsed := t.elapsed + 1 }
    else
      match engineStep t.state with
      | .next s => .next { state := s, elapsed := 0 }
      | .fault f => .fault f
      | .refused f => .refused f

/-- The access's part of a cycle; the counter starts at 0 in the cycle of acceptance. -/
def timedAccess (access : Option Access) (t : TimedState) : Host.Outcome TimedState Fault Refusal :=
  match access with
  | none => .next t
  | some a =>
    match busStep a t.state with
    | .next s => .next { state := s, elapsed := if t.state.busy then t.elapsed else 0 }
    | .fault f => .fault f
    | .refused f => .refused f

/-- One clock cycle: while `rst` is sampled 1 the block holds its reset state (R132), the counter idle at 0 (log 22);
else the completion that is due takes effect first and the access sees its results (20_memory.md R52). -/
def cycle (lat : BitVec 4 → Nat) (c : CycleInput) (t : TimedState) : Host.Outcome TimedState Fault Refusal :=
  if c.rst then
    timedAccess c.access { state := setRst true (resetBlock t.state), elapsed := 0 }
  else
    match timedEngine lat { t with state := setRst false t.state } with
    | .next u => timedAccess c.access u
    | .fault f => .fault f
    | .refused f => .refused f

/-- A run of clock cycles, stopping at the first fault or refusal. -/
def cycles (lat : BitVec 4 → Nat) : List CycleInput → TimedState → Host.Outcome TimedState Fault Refusal
  | [], t => .next t
  | c :: rest, t =>
    match cycle lat c t with
    | .next u => cycles lat rest u
    | .fault f => .fault f
    | .refused f => .refused f

/-- A cycle of this implementation, whose latency is the OPEN parameter (00_scope.md R11). -/
def implementationCycle (c : CycleInput) (t : TimedState) : Host.Outcome TimedState Fault Refusal :=
  cycle Config.lat c t

end Sys2Proof.Machine
end

