-- ==== Sys2Proof/Safety.lean ====
section
/-! DEFINITION. Safety.lean: the words claims are stated in: what a step is an act of, what it does to the block, the
invariant of 10_state.md (R22, R23, R26, R39, R40) and of 70_reset_and_hazards.md R132, runs over a list of events, and
the OFB protocol of 43_ofb.md R104. -/

namespace Sys2Proof.Machine

/-- What one step is an act of (00_scope.md R16). -/
inductive Act where
  /-- The engine completes the pending command (44_commands.md R107). -/
  | complete (i : Instr)
  /-- An access reaches the port: a bus event, or a WR or RD line (20_memory.md R43). -/
  | access (a : Access)
  /-- `rst` is asserted (70_reset_and_hazards.md R132). -/
  | assertReset
  /-- `rst` is released. -/
  | releaseReset
  /-- A host program's line without a bus access (30_encoding.md R65). -/
  | hostOnly
  /-- Nothing moves: the engine has no step and the host program has ended, or `rst` holds the block. -/
  | idle
deriving DecidableEq, Repr

/-- The act of the engine. -/
def engineAct (s : State) : Act :=
  if s.env.rst then .idle
  else
    match s.pending with
    | some i => .complete i
    | none => .idle

/-- The act of the host program. -/
def programAct (s : State) : Act :=
  match s.env.host.program[s.env.host.pc]? with
  | some (.wr off v) => .access ⟨.write v, off, .four⟩
  | some (.rd off _) => .access ⟨.read, off, .four⟩
  | some (.label _) | some (.bnz _ _ _) | some (.bz _ _ _) | some (.chk _ _) => .hostOnly
  | none => .idle

/-- The act of an event. -/
def eventAct (e : Event) (s : State) : Act :=
  match e with
  | .engine => engineAct s
  | .program => programAct s
  | .bus a => .access a
  | .assertReset => .assertReset
  | .releaseReset => .releaseReset

/-- The act the next step is. -/
def act (s : State) : Act :=
  match s.env.script with
  | e :: _ => eventAct e s
  | [] => if s.env.rst then .idle else if s.busy then engineAct s else programAct s

/-- The register and the value that an act writes: an access that the block accepts on the bus (20_memory.md R43). -/
def Act.write? : Act → Option (Reg × Word)
  | .access ⟨.write v, off, size⟩ =>
    if (⟨.write v, off, size⟩ : Access).wellFormed then some (regAt off, v) else none
  | .access ⟨.read, _, _⟩ => none
  | .complete _ | .assertReset | .releaseReset | .hostOnly | .idle => none

/-- The next step is a write of a register, accepted by the bus. -/
def Writes (s : State) (r : Reg) (v : Word) : Prop := (act s).write? = some (r, v)

/-- The block's own state of two states is the same: every element of 10_state.md R17; the environments may differ. -/
def SameBlock (s t : State) : Prop := { t with env := s.env } = s

/-- The part of the block that no command's completion touches (44_commands.md R108, last sentence), and the world
outside. -/
def SameHostSide (s t : State) : Prop :=
  t.cmdLast = s.cmdLast ∧ t.err = s.err ∧ t.errCode = s.errCode ∧ t.doneIe = s.doneIe ∧ t.errIe = s.errIe ∧
    t.env = s.env

/-- The invariant of the block, over every state a step can reach. -/
structure BlockInv (s : State) : Prop where
  /-- KEY_VALID = 1 implies `RK = KeyExpansion(KEY)` (10_state.md R39). -/
  keyCached : s.keyValid = true → s.rk = keyExpansion s.key
  /-- ERR = 0 if and only if ERR_CODE = 0x0 (10_state.md R26). -/
  errIff : s.err = false ↔ s.errCode = 0x0
  /-- ERR_CODE 0x6 to 0xF is never produced (60_exceptions.md R121). -/
  errCodeDefined : s.errCode.toNat ≤ 5
  /-- DONE = 1 implies BUSY = 0 (10_state.md R23). -/
  doneIdle : s.done = true → s.pending = none
  /-- A pending command meets the conditions it was accepted under, and CMD_LAST is its word (44_commands.md R106,
  20_memory.md R55). -/
  pendingAccepted : ∀ i, s.pending = some i → checkDecoded i s = none ∧ s.cmdLast = encode i
  /-- While `rst` is asserted the block holds its reset state (70_reset_and_hazards.md R132). -/
  heldInReset : s.env.rst = true → resetBlock s = s

/-- CHAIN is the chaining register after `j` full blocks of the message opened with `iv0` (10_state.md R40). -/
def ChainAt (iv0 : Block) (j : Nat) (s : State) : Prop :=
  s.chainValid = true ∧ s.chain = chainAfter (aes s.key) j iv0

/-- No command is pending (70_reset_and_hazards.md R144). -/
def Quiescent (s : State) : Prop := s.pending = none

/-- A safe run of `n` steps: it meets no fault and no refusal. -/
def SafeRun (n : Nat) (s : State) : Prop := ∃ t, Sys2Proof.core.run n s = .next t

/-- The run of the events `es`, in order, from `s`. -/
def runScript (es : List Event) (s : State) : Host.Outcome State Fault Refusal :=
  Sys2Proof.core.run es.length (setScript es s)

/-- The event of a 32-bit write `W off v` (30_encoding.md R63). -/
def busWrite32 (off : BitVec 7) (v : Word) : Event := .bus ⟨.write v, off, .four⟩

/-- The event of a 32-bit read `R off` (30_encoding.md R63). -/
def busRead32 (off : BitVec 7) : Event := .bus ⟨.read, off, .four⟩

/-- The engine's event of a clock cycle: where the pending command completes in it (70_reset_and_hazards.md R140). -/
def dueEvents (lat : BitVec 4 → Nat) (t : TimedState) : List Event :=
  match t.state.pending with
  | some i => if t.elapsed + 1 < lat i.opcode then [] else [.engine]
  | none => []

/-- The event of a clock cycle's access, if it has one (20_memory.md R43). -/
def accessEvents : Option Access → List Event
  | some a => [.bus a]
  | none => []

/-- The events of one clock cycle, in order: the level of `rst` (70_reset_and_hazards.md R132), the completion that falls
due while it is released, then the access (20_memory.md R52). -/
def cycleEvents (lat : BitVec 4 → Nat) (c : CycleInput) (t : TimedState) : List Event :=
  if c.rst then .assertReset :: accessEvents c.access
  else .releaseReset :: (dueEvents lat t ++ accessEvents c.access)

/-- The events of a run of clock cycles, up to and with the first cycle that stops. -/
def clockedEvents (lat : BitVec 4 → Nat) : List CycleInput → TimedState → List Event
  | [], _ => []
  | c :: rest, t =>
    cycleEvents lat c t ++
      match cycle lat c t with
      | .next u => clockedEvents lat rest u
      | .fault _ => []
      | .refused _ => []

/-- The four writes of WRBLK (30_encoding.md R66). -/
def writeBlockEvents (x : BlockReg) (b : Block) : List Event :=
  [busWrite32 (BlockReg.offset x 0) (pack b 0), busWrite32 (BlockReg.offset x 1) (pack b 1),
   busWrite32 (BlockReg.offset x 2) (pack b 2), busWrite32 (BlockReg.offset x 3) (pack b 3)]

/-- RUN (30_encoding.md R66): a command issued, `polls` reads of STATUS while it is pending, its completion, and the
read that ends the WAIT. -/
def runEvents (polls : Nat) (i : Instr) : List Event :=
  busWrite32 0x00 (encode i) :: (List.replicate polls (busRead32 0x04) ++ [.engine, busRead32 0x04])

/-- The block the host reads from a 16-byte register by RDBLK (30_encoding.md R66). -/
def readBlock (x : BlockReg) (s : State) : Block :=
  Block.ofRegs (busRead (BlockReg.offset x 0) s) (busRead (BlockReg.offset x 1) s)
    (busRead (BlockReg.offset x 2) s) (busRead (BlockReg.offset x 3) s)

/-- Steps 1 to 4 of the protocol of 43_ofb.md R104. -/
def openMessageEvents (polls : Nat) (k iv : Block) : List Event :=
  writeBlockEvents .key k ++ runEvents polls .keyexp ++ writeBlockEvents .iv iv ++ runEvents polls .ofbInit

/-- Step 5 of the protocol for `n` blocks of `p` (43_ofb.md R104): the bytes read and the state after; none if the
run stops. -/
def fullBlocksProtocol (polls : Nat) : Nat → List Byte → State → Option (List Byte × State)
  | 0, _, s => some ([], s)
  | n + 1, p, s =>
    match runScript (writeBlockEvents .din (Block.ofList (p.take 16)) ++ runEvents polls .ofbBlock) s with
    | .next t =>
      match fullBlocksProtocol polls n (p.drop 16) t with
      | some (c, u) => some ((readBlock .dout t).toBytes ++ c, u)
      | none => none
    | .fault _ => none
    | .refused _ => none

/-- Step 6 of the protocol for the last bytes `p`, fewer than 16, padded with any bytes `pad` (43_ofb.md R104). -/
def partialProtocol (polls : Nat) (p pad : List Byte) (s : State) : Option (List Byte × State) :=
  if 0 < p.length then
    match runScript (writeBlockEvents .din (Block.ofList (p ++ pad)) ++
        runEvents polls (.ofbFinal (BitVec.ofNat 4 p.length))) s with
    | .next t => some ((readBlock .dout t).toBytes.take p.length, t)
    | .fault _ => none
    | .refused _ => none
  else some ([], s)

/-- The whole protocol of 43_ofb.md R104 for the message `p`: the bytes the host reads and the state after. -/
def ofbProtocol (polls : Nat) (k iv : Block) (p pad : List Byte) (s : State) : Option (List Byte × State) :=
  match runScript (openMessageEvents polls k iv) s with
  | .next s1 =>
    match fullBlocksProtocol polls (p.length / 16) p s1 with
    | some (c, s2) =>
      match partialProtocol polls (p.drop (16 * (p.length / 16))) pad s2 with
      | some (c', s3) => some (c ++ c', s3)
      | none => none
    | none => none
  | .fault _ => none
  | .refused _ => none

end Sys2Proof.Machine
end

