-- ==== Sys2Proof/Certificates/Slice0/Obligations.lean ====
section
/-! DEFINITION. Certificates/Slice0/Obligations.lean: the statements about the model, one `def Obligations.<Name> : Prop`
each. Every docstring names the rules of spec/ it formalises. -/

open Sys2Proof Sys2Proof.Machine

/-! ### Encoding -/

/-- The words of the opcode map (30_encoding.md R58), written out, decode to their commands; 0x7 to 0xF to none. -/
def Obligations.CommandWordsDecode : Prop :=
  decode 0x00000000 = .ok .nop ∧ decode 0x00000001 = .ok .keyexp ∧ decode 0x00000002 = .ok .enc ∧
  decode 0x00000003 = .ok .ofbInit ∧ decode 0x00000004 = .ok .ofbBlock ∧ decode 0x00000005 = .ok (.ofbFinal 0) ∧
  decode 0x00000105 = .ok (.ofbFinal 1) ∧ decode 0x00000F05 = .ok (.ofbFinal 15) ∧
  decode 0x00000006 = .ok .clear ∧ decode 0x00000007 = .error .reservedOpcode ∧
  decode 0x0000000F = .error .reservedOpcode ∧ decode 0x00000102 = .error .lengthNotAllowed ∧
  decode 0x00000012 = .error .reservedBits ∧ decode 0x80000001 = .error .reservedBits

/-- Decoding the word of any command, with LEN at any of its 16 values, gives the command (R57, R58, R60). -/
def Obligations.DecodeOfEncodeIsTheCommand : Prop :=
  ∀ i : Instr, decode (encode i) = .ok i

/-- A word that decodes to a command is that command's word: no bit of it is dropped (R57, R60). -/
def Obligations.EncodeOfDecodeIsTheWord : Prop :=
  ∀ (w : Word) (i : Instr), decode w = .ok i → encode i = w

/-- `Decode` (30_encoding.md R60): a word is Illegal exactly in the four cases of the rule's tests, else it is the
command of its OP with its LEN; a word matches a row exactly when `(word & mask) == match`, so rows are disjoint. -/
def Obligations.DecodingFollowsTheOpcodeMap : Prop :=
  (∀ w : Word,
    ((∃ e, decode w = .error e) ↔
      (w.extractLsb' 12 20 ≠ 0 ∨ w.extractLsb' 4 4 ≠ 0) ∨ 0x7 ≤ (w.extractLsb' 0 4).toNat ∨
        (w.extractLsb' 0 4 ≠ 0x5 ∧ w.extractLsb' 8 4 ≠ 0)) ∧
    (∀ i, decode w = .ok i → i.opcode = w.extractLsb' 0 4 ∧ i.len = w.extractLsb' 8 4)) ∧
  (∀ (w : Word) (i : Instr), w &&& i.rowMask = i.rowMatch ↔ ∃ j, decode w = .ok j ∧ j.opcode = i.opcode)

/-- The written form (30_encoding.md R64): the seven written forms as literals, OFB_FINAL with its LEN in decimal; a
command's written form reads back as the command, and reading does not depend on the case of letters. -/
def Obligations.WrittenCommandsParse : Prop :=
  (Instr.nop.render = ['N', 'O', 'P'] ∧ Instr.keyexp.render = ['K', 'E', 'Y', 'E', 'X', 'P'] ∧
    Instr.enc.render = ['E', 'N', 'C'] ∧ Instr.ofbInit.render = ['O', 'F', 'B', '_', 'I', 'N', 'I', 'T'] ∧
    Instr.ofbBlock.render = ['O', 'F', 'B', '_', 'B', 'L', 'O', 'C', 'K'] ∧
    (∀ len : BitVec 4, (Instr.ofbFinal len).render =
      ['O', 'F', 'B', '_', 'F', 'I', 'N', 'A', 'L', ' ', '#'] ++ Nat.toDigits 10 len.toNat) ∧
    Instr.clear.render = ['C', 'L', 'E', 'A', 'R']) ∧
  (∀ i : Instr, parseCommand i.render = some i) ∧
  (∀ cs : List Char, parseCommand (cs.map upperChar) = parseCommand cs)

/-! ### Reset -/

/-- Reset (70_reset_and_hazards.md R132, R133): the state after reset has every element of 10_state.md R17 at its
reset value; asserting `rst` in any state, a command pending or not, gives those values; while `rst` stays asserted
the engine has no step, and an access is refused (P9; the refusal is the model's choice, log 5). -/
def Obligations.ResetTakesEveryElement : Prop :=
  (∀ t : State, SameBlock State.reset t →
    t.cmdLast = 0 ∧ statusWord t = 0x00000000 ∧ ienWord t = 0 ∧ t.key = Block.zero ∧ t.iv = Block.zero ∧
    t.din = Block.zero ∧ t.dout = Block.zero ∧ (∀ (i : Nat) (h : i < 44), t.rk[i] = Quad.zero) ∧
    t.cipherState = Block.zero ∧ t.chain = Block.zero ∧ t.ks = Block.zero ∧ t.pending = none ∧ irq t = false) ∧
  (∀ (s : State) (rest : List Event), s.env.script = .assertReset :: rest →
    ∃ t, step s = .next t ∧ SameBlock State.reset t ∧ t.env = { s.env with rst := true, script := rest }) ∧
  (∀ (s : State) (rest : List Event), s.env.rst = true → s.env.script = .engine :: rest →
    step s = .next (setScript rest s)) ∧
  (∀ (s : State) (a : Access) (rest : List Event), s.env.rst = true → s.env.script = .bus a :: rest →
    step s = .refused .accessDuringReset)

/-- After reset (70_reset_and_hazards.md R134): idle, no key, no open message, IEN = 0, and the first read of every
register returns 0. -/
def Obligations.FirstReadsAfterResetAreZero : Prop :=
  State.reset.busy = false ∧ State.reset.keyValid = false ∧ State.reset.chainValid = false ∧
  State.reset.doneIe = false ∧ State.reset.errIe = false ∧
  (∀ off : BitVec 7, busRead off State.reset = 0x00000000)

/-! ### The invariant -/

/-- The invariant holds at reset (10_state.md R23, R26, R39). -/
def Obligations.InvariantHoldsAtReset : Prop := BlockInv State.reset

/-- Every step keeps the invariant (10_state.md R23, R26, R39; 20_memory.md R55, R56; 60_exceptions.md R121;
70_reset_and_hazards.md R132): whenever KEY_VALID = 1, `RK = KeyExpansion(KEY)`; ERR = 0 iff ERR_CODE = 0 and no
reserved code; DONE = 1 implies BUSY = 0; a pending command meets its acceptance conditions; `rst` holds the block. -/
def Obligations.InvariantKeptByEveryStep : Prop :=
  ∀ s t : State, BlockInv s → step s = .next t → BlockInv t

/-- The chaining register of an open message (10_state.md R40): a step of a state whose CHAIN is `E^j(IV0)` closes the
message, or opens a new one from IV, or keeps KEY and leaves CHAIN at `E^j(IV0)`, advanced to `E^(j+1)(IV0)` exactly
by a completion of OFB_BLOCK. -/
def Obligations.OpenMessageChainAdvances : Prop :=
  ∀ (s t : State) (iv0 : Block) (j : Nat), BlockInv s → ChainAt iv0 j s → step s = .next t →
    t.chainValid = false ∨
    (act s = .complete .ofbInit ∧ t.key = s.key ∧ ChainAt s.iv 0 t) ∨
    (t.key = s.key ∧ act s = .complete .ofbBlock ∧ ChainAt iv0 (j + 1) t) ∨
    (t.key = s.key ∧ act s ≠ .complete .ofbBlock ∧ ChainAt iv0 j t)

/-! ### The register window -/

/-- The "read returns" column of the register map (20_memory.md R42, R44), for every register and the reserved
offsets; a read changes no state (R45). -/
def Obligations.ReadsReturnTheRegisterMap : Prop :=
  ∀ s : State,
    busRead 0x00 s = s.cmdLast ∧ busRead 0x04 s = statusWord s ∧ busRead 0x08 s = ienWord s ∧
    busRead 0x0C s = 0x00000000 ∧
    (∀ k : Fin 4,
      busRead (BitVec.ofNat 7 (0x10 + 4 * k.val)) s = 0x00000000 ∧
      busRead (BitVec.ofNat 7 (0x20 + 4 * k.val)) s = pack s.iv k ∧
      busRead (BitVec.ofNat 7 (0x30 + 4 * k.val)) s = pack s.din k ∧
      busRead (BitVec.ofNat 7 (0x40 + 4 * k.val)) s = pack s.dout k) ∧
    (∀ off : BitVec 7, 0x50 ≤ off.toNat → busRead off s = 0x00000000) ∧
    (∀ (off : BitVec 7) (size : AccessSize), (hostAccess ⟨.read, off, size⟩ s).2 = s)

/-- The layout of STATUS as a read returns it (10_state.md R21). -/
def Obligations.StatusBitLayout : Prop :=
  ∀ s : State,
    (statusWord s).getLsbD 0 = s.busy ∧ (statusWord s).getLsbD 1 = s.done ∧
    (statusWord s).getLsbD 2 = s.keyValid ∧ (statusWord s).getLsbD 3 = s.chainValid ∧
    (statusWord s).getLsbD 4 = s.err ∧ (statusWord s).extractLsb' 5 3 = 0 ∧
    (statusWord s).extractLsb' 8 4 = s.errCode ∧ (statusWord s).extractLsb' 12 20 = 0

/-- Which accesses the block answers with ERROR (20_memory.md R43, 60_exceptions.md R126): a narrow or misaligned one,
with no state changed and, for a read, rdata 0; every other read and write answers OKAY. In a host program such a WR or
RD line stops the program. -/
def Obligations.BusErrorsChangeNothing : Prop :=
  ∀ (kind : AccessKind) (off : BitVec 7) (size : AccessSize) (s : State),
    ((size ≠ .four ∨ off.toNat % 4 ≠ 0) →
      (hostAccess ⟨kind, off, size⟩ s).1.resp = .error ∧ (hostAccess ⟨kind, off, size⟩ s).2 = s ∧
      (kind = .read → (hostAccess ⟨kind, off, size⟩ s).1.rdata = 0x00000000)) ∧
    ((size = .four ∧ off.toNat % 4 = 0) → (hostAccess ⟨kind, off, size⟩ s).1.resp = .okay) ∧
    (off.toNat % 4 ≠ 0 → s.env.rst = false →
      (∀ v, runLine (.wr off v) s = .fault .busError) ∧ (∀ t, runLine (.rd off t) s = .fault .busError))

/-- The packing of a 16-byte register (20_memory.md R46): byte `n` is bits `[31 - 8*(n mod 4) : 24 - 8*(n mod 4)]` of
register `X(n div 4)`, read and written; a write of one register leaves the other twelve bytes. -/
def Obligations.PackingIsBigEndian : Prop :=
  ∀ (b : Block) (v : Word) (k : Fin 4) (n : Fin 16),
    (n.val / 4 = k.val → (pack b k).extractLsb' (24 - 8 * (n.val % 4)) 8 = b.byte n) ∧
    (unpack b v k).byte n = (if n.val / 4 = k.val then v.extractLsb' (24 - 8 * (n.val % 4)) 8 else b.byte n) ∧
    pack (unpack b v k) k = v

/-- A write of KEYk (44_commands.md R116): rejected with BUSY while BUSY = 1, else the key bytes change, KEY_VALID and
CHAIN_VALID clear, and nothing else changes. -/
def Obligations.KeyWordWrite : Prop :=
  ∀ (k : Fin 4) (v : Word) (s : State),
    busWrite (BitVec.ofNat 7 (0x10 + 4 * k.val)) v s =
      if s.busy then raiseError .busy s
      else { s with key := unpack s.key v k, keyValid := false, chainValid := false }

/-- Writes of IVk and DINk (44_commands.md R117, R118): rejected with BUSY while BUSY = 1, else the four bytes change
and no status bit. -/
def Obligations.IvAndDinWordWrites : Prop :=
  ∀ (k : Fin 4) (v : Word) (s : State),
    (busWrite (BitVec.ofNat 7 (0x20 + 4 * k.val)) v s =
      if s.busy then raiseError .busy s else { s with iv := unpack s.iv v k }) ∧
    (busWrite (BitVec.ofNat 7 (0x30 + 4 * k.val)) v s =
      if s.busy then raiseError .busy s else { s with din := unpack s.din v k })

/-- A write of STATUS (44_commands.md R119): bit 1 clears DONE, bit 4 clears ERR and ERR_CODE, the other bits are
ignored; accepted at any time. -/
def Obligations.StatusWrite : Prop :=
  ∀ (v : Word) (s : State),
    busWrite 0x04 v s =
      { s with done := s.done && !v.getLsbD 1, err := s.err && !v.getLsbD 4,
               errCode := if v.getLsbD 4 then 0x0 else s.errCode }

/-- Writes that are ignored (20_memory.md R44): to DOUT and to the reserved offsets. -/
def Obligations.IgnoredWrites : Prop :=
  ∀ (off : BitVec 7) (v : Word) (s : State),
    off.toNat / 4 = 3 ∨ 0x40 ≤ off.toNat → busWrite off v s = s

/-! ### Issue, errors -/

/-- The effect of an error (60_exceptions.md R124): a rejected CMD write, and a write to KEY, IV or DIN while BUSY = 1,
is answered OKAY and changes ERR and ERR_CODE only, and those only if ERR = 0. -/
def Obligations.RejectedWritesOnlyRecordTheError : Prop :=
  ∀ (v : Word) (s : State),
    (∀ e, checkCmd v s = some e →
      hostAccess ⟨.write v, 0x00, .four⟩ s =
        (⟨.okay, 0x00000000⟩, { s with err := true, errCode := if s.err then s.errCode else errorCode e })) ∧
    (s.busy = true → ∀ (x : BlockReg) (k : Fin 4), x ≠ .dout →
      hostAccess ⟨.write v, BlockReg.offset x k, .four⟩ s =
        (⟨.okay, 0x00000000⟩, { s with err := true, errCode := if s.err then s.errCode else 0x2 }))

/-- The conditions of errors (60_exceptions.md R122): `CheckCmd`, its tests on the word's fields and in the priority of
R123; `CheckOperandWrite`; and no other access raises an error: one that sets ERR is a 32-bit write to CMD that
`CheckCmd` rejects, or to KEY, IV or DIN while BUSY = 1. -/
def Obligations.CommandCheckPriority : Prop :=
  (∀ s : State, checkOperandWrite s = if s.busy then some .busy else none) ∧
  (∀ (a : Access) (s : State), s.err = false → (hostAccess a s).2.err = true →
    ∃ v, a = ⟨.write v, a.off, .four⟩ ∧
      ((a.off = 0x00 ∧ checkCmd v s ≠ none) ∨
        ∃ (x : BlockReg) (k : Fin 4), x ≠ .dout ∧ a.off = BlockReg.offset x k ∧ checkOperandWrite s ≠ none)) ∧
  ∀ (v : Word) (s : State),
    checkCmd v s =
      if s.busy then some .busy
      else if (v.extractLsb' 12 20 ≠ 0 ∨ v.extractLsb' 4 4 ≠ 0) ∨ 0x7 ≤ (v.extractLsb' 0 4).toNat ∨
          (v.extractLsb' 0 4 ≠ 0x5 ∧ v.extractLsb' 8 4 ≠ 0) then some .illegalCmd
      else if v.extractLsb' 0 4 = 0x5 ∧ v.extractLsb' 8 4 = 0 then some .badLen
      else if (v.extractLsb' 0 4 = 0x2 ∨ v.extractLsb' 0 4 = 0x4 ∨ v.extractLsb' 0 4 = 0x5) ∧ s.keyValid = false then
        some .noKey
      else if (v.extractLsb' 0 4 = 0x4 ∨ v.extractLsb' 0 4 = 0x5) ∧ s.chainValid = false then some .noChain
      else none

/-- Acceptance (44_commands.md R105, R106): a CMD write that `CheckCmd` passes sets CMD_LAST, PENDING (so BUSY = 1) and
DONE, and changes nothing else. -/
def Obligations.AcceptedCommandIsPending : Prop :=
  ∀ (v : Word) (s : State), checkCmd v s = none →
    ∃ i, decode v = .ok i ∧
      hostAccess ⟨.write v, 0x00, .four⟩ s =
        (⟨.okay, 0x00000000⟩, { s with cmdLast := v, pending := some i, done := false })

/-! ### Which step changes which register -/

/-- CMD_LAST (10_state.md R20): written by an accepted command write, zeroed by reset, changed by nothing else, and
returned by a read of CMD. -/
def Obligations.CmdLastChangesOnAcceptance : Prop :=
  (∀ s : State, busRead 0x00 s = s.cmdLast) ∧
  ∀ s t : State, step s = .next t →
    (∀ v, Writes s .cmd v → t.cmdLast = if checkCmd v s = none then v else s.cmdLast) ∧
    (act s = .assertReset → t.cmdLast = 0x00000000) ∧
    ((∀ v, ¬ Writes s .cmd v) → act s ≠ .assertReset → t.cmdLast = s.cmdLast)

/-- BUSY and PENDING (10_state.md R22, R36): BUSY = (PENDING != none); an accepted command write sets PENDING, its
completion and reset clear it, nothing else changes it; while it holds a command the engine's step completes that
command, and while it holds none the engine has no step. -/
def Obligations.PendingChangesOnAcceptanceAndCompletion : Prop :=
  (∀ s : State, (s.busy = true ↔ s.pending ≠ none) ∧ (s.pending = none → engineStep s = .next s) ∧
    (s.env.rst = false → ∀ i, s.pending = some i → engineAct s = .complete i ∧ engineStep s = exec i s)) ∧
  ∀ s t : State, step s = .next t →
    (∀ v, Writes s .cmd v → checkCmd v s = none → ∃ i, decode v = .ok i ∧ t.pending = some i) ∧
    (∀ i, act s = .complete i → s.pending = some i ∧ t.pending = none) ∧
    (act s = .assertReset → t.pending = none) ∧
    ((∀ v, Writes s .cmd v → checkCmd v s ≠ none) → (∀ i, act s ≠ .complete i) → act s ≠ .assertReset →
      t.pending = s.pending)

/-- STATUS.DONE (10_state.md R23): cleared by acceptance, set by completion, cleared by a STATUS write with bit 1 and
by reset; nothing else changes it, a rejected write among them; DONE = 1 implies BUSY = 0, after a step if before. -/
def Obligations.DoneChanges : Prop :=
  ∀ s t : State, step s = .next t →
    (∀ v, Writes s .cmd v → t.done = if checkCmd v s = none then false else s.done) ∧
    (∀ i, act s = .complete i → t.done = true) ∧
    (∀ v, Writes s .status v → t.done = (s.done && !v.getLsbD 1)) ∧
    (act s = .assertReset → t.done = false) ∧
    ((s.done = true → s.busy = false) → t.done = true → t.busy = false) ∧
    ((∀ v, ¬ Writes s .cmd v ∧ ¬ Writes s .status v) → (∀ i, act s ≠ .complete i) → act s ≠ .assertReset →
      t.done = s.done)

/-- STATUS.KEY_VALID (10_state.md R24): set by completion of KEYEXP; cleared by an accepted KEY write, by completion of
CLEAR and by reset; nothing else changes it. -/
def Obligations.KeyValidChanges : Prop :=
  ∀ s t : State, step s = .next t →
    (act s = .complete .keyexp → t.keyValid = true) ∧
    (act s = .complete .clear ∨ act s = .assertReset → t.keyValid = false) ∧
    (∀ k v, Writes s (.key k) v → t.keyValid = (s.keyValid && s.busy)) ∧
    (act s ≠ .complete .keyexp → act s ≠ .complete .clear → act s ≠ .assertReset → (∀ k v, ¬ Writes s (.key k) v) →
      t.keyValid = s.keyValid)

/-- STATUS.CHAIN_VALID (10_state.md R25): set by completion of OFB_INIT; cleared by completion of OFB_FINAL, by an
accepted KEY write, by completion of CLEAR and by reset; nothing else changes it, OFB_BLOCK among them. -/
def Obligations.ChainValidChanges : Prop :=
  ∀ s t : State, step s = .next t →
    (act s = .complete .ofbInit → t.chainValid = true) ∧
    ((∃ len, act s = .complete (.ofbFinal len)) ∨ act s = .complete .clear ∨ act s = .assertReset →
      t.chainValid = false) ∧
    (∀ k v, Writes s (.key k) v → t.chainValid = (s.chainValid && s.busy)) ∧
    (act s ≠ .complete .ofbInit → (∀ len, act s ≠ .complete (.ofbFinal len)) → act s ≠ .complete .clear →
      act s ≠ .assertReset → (∀ k v, ¬ Writes s (.key k) v) → t.chainValid = s.chainValid)

/-- STATUS.ERR and ERR_CODE (10_state.md R26), with the five codes of 60_exceptions.md R121: an error raised with ERR = 0 is recorded and with ERR = 1 changes
neither; a STATUS write with bit 4 and reset clear both; nothing else changes them; ERR = 0 if and only if ERR_CODE = 0,
after a step if before. -/
def Obligations.ErrorBitsChange : Prop :=
  (errorCode .illegalCmd = 0x1 ∧ errorCode .busy = 0x2 ∧ errorCode .noKey = 0x3 ∧ errorCode .noChain = 0x4 ∧
    errorCode .badLen = 0x5) ∧
  ∀ s t : State, step s = .next t →
    (∀ v e, Writes s .cmd v → checkCmd v s = some e →
      t.err = true ∧ t.errCode = if s.err then s.errCode else errorCode e) ∧
    (∀ k v, Writes s (.key k) v ∨ Writes s (.iv k) v ∨ Writes s (.din k) v → s.busy = true →
      t.err = true ∧ t.errCode = if s.err then s.errCode else errorCode .busy) ∧
    (∀ v, Writes s .status v → v.getLsbD 4 = true → t.err = false ∧ t.errCode = 0x0) ∧
    (act s = .assertReset → t.err = false ∧ t.errCode = 0x0) ∧
    ((s.err = false ↔ s.errCode = 0x0) → (t.err = false ↔ t.errCode = 0x0)) ∧
    ((∀ v, Writes s .cmd v → checkCmd v s = none) →
      (∀ k v, Writes s (.key k) v ∨ Writes s (.iv k) v ∨ Writes s (.din k) v → s.busy = false) →
      (∀ v, Writes s .status v → v.getLsbD 4 = false) → act s ≠ .assertReset →
      t.err = s.err ∧ t.errCode = s.errCode)

/-- IEN (10_state.md R27): a read returns `zext_32(ERR_IE || DONE_IE)`; a write sets both enables at any time; reset
clears them; nothing else changes them; with both at 0 there is no interrupt. -/
def Obligations.InterruptEnables : Prop :=
  (∀ s : State, s.doneIe = false → s.errIe = false → irq s = false) ∧
  (∀ s : State, (busRead 0x08 s).getLsbD 0 = s.doneIe ∧ (busRead 0x08 s).getLsbD 1 = s.errIe ∧
    (busRead 0x08 s).extractLsb' 2 30 = 0) ∧
  ∀ s t : State, step s = .next t →
    (∀ v, Writes s .ien v → t.doneIe = v.getLsbD 0 ∧ t.errIe = v.getLsbD 1) ∧
    (act s = .assertReset → t.doneIe = false ∧ t.errIe = false) ∧
    ((∀ v, ¬ Writes s .ien v) → act s ≠ .assertReset → t.doneIe = s.doneIe ∧ t.errIe = s.errIe)

/-- KEY, IV and DIN (10_state.md R28, R29, R30): written by an accepted write of their own registers, zeroed by CLEAR
and by reset, and by no other step: no OFB command writes the IV or the key (43_ofb.md R102). -/
def Obligations.OperandRegistersChange : Prop :=
  ∀ s t : State, step s = .next t →
    (∀ k v, Writes s (.key k) v → t.key = if s.busy then s.key else unpack s.key v k) ∧
    (∀ k v, Writes s (.iv k) v → t.iv = if s.busy then s.iv else unpack s.iv v k) ∧
    (∀ k v, Writes s (.din k) v → t.din = if s.busy then s.din else unpack s.din v k) ∧
    (act s = .complete .clear ∨ act s = .assertReset →
      t.key = Block.zero ∧ t.iv = Block.zero ∧ t.din = Block.zero) ∧
    (act s ≠ .complete .clear → act s ≠ .assertReset →
      ((∀ k v, ¬ Writes s (.key k) v) → t.key = s.key) ∧ ((∀ k v, ¬ Writes s (.iv k) v) → t.iv = s.iv) ∧
      ((∀ k v, ¬ Writes s (.din k) v) → t.din = s.din))

/-- DOUT, RK, STATE, CHAIN and KS (10_state.md R31 to R35): each changes only at a completion of a command that writes
it or at reset; in particular no host access changes them, and while a command is pending they keep their values. -/
def Obligations.ResultRegistersChangeAtCompletion : Prop :=
  ∀ s t : State, step s = .next t → act s ≠ .assertReset → act s ≠ .complete .clear →
    (t.dout ≠ s.dout → act s = .complete .enc ∨ act s = .complete .ofbBlock ∨
      ∃ len, act s = .complete (.ofbFinal len)) ∧
    (t.rk ≠ s.rk → act s = .complete .keyexp) ∧
    (t.cipherState ≠ s.cipherState → act s = .complete .enc ∨ act s = .complete .ofbBlock ∨
      ∃ len, act s = .complete (.ofbFinal len)) ∧
    (t.chain ≠ s.chain → act s = .complete .ofbInit ∨ act s = .complete .ofbBlock) ∧
    (t.ks ≠ s.ks → act s = .complete .ofbBlock ∨ ∃ len, act s = .complete (.ofbFinal len))

/-! ### The commands -/

/-- NOP (44_commands.md R109): its word, the only word of all zeros, when it is accepted, and its completion. -/
def Obligations.NopCommand : Prop :=
  encode .nop = 0x00000000 ∧ (∀ i, encode i = 0x00000000 → i = .nop) ∧
  ∀ s : State,
    (checkCmd 0x00000000 s = if s.busy then some .busy else none) ∧
    exec .nop s = .next { s with pending := none, done := true }

/-- KEYEXP (44_commands.md R110): its word, when it is accepted, and its completion; with KEY_VALID = 1, in a state that
keeps the invariant, it recomputes the same RK. -/
def Obligations.KeyexpCommand : Prop :=
  encode .keyexp = 0x00000001 ∧
  ∀ s : State,
    (checkCmd 0x00000001 s = if s.busy then some .busy else none) ∧
    exec .keyexp s = .next { s with rk := keyExpansion s.key, keyValid := true, pending := none, done := true } ∧
    (BlockInv s → s.keyValid = true → ∃ t, exec .keyexp s = .next t ∧ t.rk = s.rk)

/-- ENC (44_commands.md R111): its word, when it is accepted, and its completion; with KEY_VALID = 1, in a state that keeps
the invariant (10_state.md R39), `DOUT = AES(KEY, DIN)`; a second ENC gives the same DOUT. -/
def Obligations.EncCommand : Prop :=
  encode .enc = 0x00000002 ∧
  ∀ s : State,
    (checkCmd 0x00000002 s = if s.busy then some .busy else if s.keyValid = false then some .noKey else none) ∧
    exec .enc s =
      .next { s with dout := cipher s.rk s.din, cipherState := cipher s.rk s.din, pending := none, done := true } ∧
    ∃ t u, exec .enc s = .next t ∧ (BlockInv s → s.keyValid = true → t.dout = aes s.key s.din) ∧
      exec .enc t = .next u ∧ u.dout = t.dout

/-- OFB_INIT (44_commands.md R112): its word, when it is accepted, and its completion. -/
def Obligations.OfbInitCommand : Prop :=
  encode .ofbInit = 0x00000003 ∧
  ∀ s : State,
    (checkCmd 0x00000003 s = if s.busy then some .busy else none) ∧
    exec .ofbInit s = .next { s with chain := s.iv, chainValid := true, pending := none, done := true }

/-- OFB_BLOCK (44_commands.md R113, 43_ofb.md R98): its word, when it is accepted, and its completion: DOUT takes
`DIN ^ O`, and KS, CHAIN and STATE take the keystream `O = Cipher(RK, CHAIN)`. -/
def Obligations.OfbBlockCommand : Prop :=
  encode .ofbBlock = 0x00000004 ∧
  ∀ s : State,
    (checkCmd 0x00000004 s =
      if s.busy then some .busy else if s.keyValid = false then some .noKey
      else if s.chainValid = false then some .noChain else none) ∧
    ∃ t, exec .ofbBlock s = .next t ∧
      (∀ n, t.dout.byte n = s.din.byte n ^^^ (cipher s.rk s.chain).byte n) ∧
      { t with dout := s.dout } =
        { s with ks := cipher s.rk s.chain, chain := cipher s.rk s.chain, cipherState := cipher s.rk s.chain,
                 pending := none, done := true }

/-- OFB_FINAL #r (44_commands.md R114, 43_ofb.md R99), for every LEN that can be accepted: its word, when it is
accepted, and its completion: byte `n` of DOUT is `DIN[n] ^ O[n]` for `n < r` and 0x00 from there on; KS and STATE take
`O = Cipher(RK, CHAIN)`; CHAIN_VALID clears and CHAIN stays. The word with LEN = 0 is rejected with BAD_LEN. -/
def Obligations.OfbFinalCommand : Prop :=
  ∀ len : BitVec 4, encode (.ofbFinal len) = 0x00000005 ||| (len.setWidth 32 <<< 8) ∧
  ∀ s : State,
    (checkCmd (encode (.ofbFinal len)) s =
      if s.busy then some .busy else if len = 0 then some .badLen else if s.keyValid = false then some .noKey
      else if s.chainValid = false then some .noChain else none) ∧
    (len ≠ 0 →
      ∃ t, exec (.ofbFinal len) s = .next t ∧
        (∀ n : Fin 16, t.dout.byte n =
          if n.val < len.toNat then s.din.byte n ^^^ (cipher s.rk s.chain).byte n else 0x00) ∧
        { t with dout := s.dout } =
          { s with ks := cipher s.rk s.chain, cipherState := cipher s.rk s.chain, chainValid := false,
                   pending := none, done := true })

/-- CLEAR (44_commands.md R115): its word, when it is accepted, and its completion: every data register and RK zero, the
valid bits 0; IEN, ERR, ERR_CODE and CMD_LAST stay. -/
def Obligations.ClearCommand : Prop :=
  encode .clear = 0x00000006 ∧
  ∀ s : State,
    (checkCmd 0x00000006 s = if s.busy then some .busy else none) ∧
    exec .clear s =
      .next { State.reset with cmdLast := s.cmdLast, doneIe := s.doneIe, errIe := s.errIe, err := s.err,
                               errCode := s.errCode, env := s.env, done := true }

/-- The frame of every command's completion (44_commands.md R108), on what the host can read and on the rest: CMD_LAST,
IEN, ERR, ERR_CODE and the world outside stay; NOP, KEYEXP and OFB_INIT change the read of STATUS alone; ENC, OFB_BLOCK
and OFB_FINAL the reads of STATUS and DOUT; CLEAR those of STATUS, IV, DIN and DOUT. KEY changes by CLEAR alone, RK by
KEYEXP and CLEAR, CHAIN not by NOP, KEYEXP, ENC and OFB_FINAL, KS and STATE not by NOP, KEYEXP and OFB_INIT, KS not by
ENC. -/
def Obligations.CompletionFrame : Prop :=
  ∀ (i : Instr) (s t : State), exec i s = .next t →
    SameHostSide s t ∧
    (∀ off : BitVec 7, off.toNat / 4 ≠ 1 →
      (i = .nop ∨ i = .keyexp ∨ i = .ofbInit) ∨ off.toNat < 0x40 ∧ i ≠ .clear ∨ off.toNat < 0x20 ∨ 0x50 ≤ off.toNat →
      busRead off t = busRead off s) ∧
    (i ≠ .clear → t.key = s.key ∧ t.iv = s.iv ∧ t.din = s.din) ∧
    (i ≠ .keyexp → i ≠ .clear → t.rk = s.rk ∧ t.keyValid = s.keyValid) ∧
    (i = .nop ∨ i = .keyexp ∨ i = .enc ∨ i.opcode = 0x5 → t.chain = s.chain) ∧
    (i = .nop ∨ i = .keyexp ∨ i = .enc ∨ i = .ofbBlock → t.chainValid = s.chainValid) ∧
    (i = .nop ∨ i = .keyexp ∨ i = .ofbInit → t.ks = s.ks ∧ t.cipherState = s.cipherState ∧ t.dout = s.dout) ∧
    (i = .enc → t.ks = s.ks)

/-! ### The step -/

/-- One step runs what is due (10_state.md R36, 44_commands.md R107, 20_memory.md R50, R51): a pending command by its
meaning at that state, with nothing added, when the engine is the next event; an access by `HostAccess`. The list of
events is the model's (log 3), and two clauses are its choice: that a pending command runs when no event is listed, the
engine moving first (the second clause, log 3, which R51 and R143 do not force), and that a word placed by
`withFetchWord` that decodes runs by its meaning (the last clause, log 4). -/
def Obligations.StepRunsTheDueAct : Prop :=
  (∀ (s : State) (i : Instr) (rest : List Event), s.env.rst = false → s.pending = some i →
    s.env.script = .engine :: rest → step s = exec i (setScript rest s)) ∧
  (∀ (s : State) (i : Instr), s.env.rst = false → s.pending = some i → s.env.script = [] → step s = exec i s) ∧
  (∀ (s : State) (rest : List Event), s.pending = none → s.env.script = .engine :: rest →
    step s = .next (setScript rest s)) ∧
  (∀ (s : State) (a : Access) (rest : List Event), s.env.rst = false → s.env.script = .bus a :: rest →
    step s = .next (setResponse (hostAccess a (setScript rest s)).1 (hostAccess a (setScript rest s)).2)) ∧
  (∀ (s : State) (w : Nat) (i : Instr), decodeTableWord 32 w = some i →
    ∃ u, u.pending = some i ∧ u.env.rst = false ∧ step (s.withFetchWord 32 w) = exec i u ∧
      u = { s with cmdLast := BitVec.ofNat 32 w, pending := some i, done := false,
                   env := { s.env with rst := false } })

/-- Issue then completion (44_commands.md R105, R106, R107): from a state with BUSY = 0 whose valid bits the command's
checks accept, a write of its word to CMD and then the engine's step give the command's effect on the state acceptance
leaves. -/
def Obligations.IssuedCommandCompletes : Prop :=
  ∀ (i : Instr) (s : State), s.pending = none → s.env.rst = false → checkDecoded i s = none →
    ∃ t, runScript [busWrite32 0x00 (encode i), .engine] s = .next t ∧
      exec i { s with cmdLast := encode i, pending := some i, done := false,
                      env := { s.env with script := [], response := some ⟨.okay, 0x00000000⟩ } } = .next t

/-- Whatever accesses reach the port while a command is pending, its completion gives the results it would have given
at once (20_memory.md R55, 44_commands.md R107, 70_reset_and_hazards.md R143): the operands it reads equal their values
at acceptance, and every access is answered. -/
def Obligations.PendingResultsUnaffectedByTheHost : Prop :=
  ∀ (s : State) (i : Instr) (as : List Access), s.pending = some i → s.env.rst = false →
    ∃ t u, runScript (as.map .bus ++ [.engine]) s = .next t ∧ exec i s = .next u ∧
      t.pending = none ∧ t.done = true ∧ t.cmdLast = s.cmdLast ∧
      t.keyValid = u.keyValid ∧ t.chainValid = u.chainValid ∧ t.key = u.key ∧ t.iv = u.iv ∧ t.din = u.din ∧
      t.dout = u.dout ∧ t.rk = u.rk ∧ t.cipherState = u.cipherState ∧ t.chain = u.chain ∧ t.ks = u.ks

/-- No access reads back key material (60_exceptions.md R128, 10_state.md R28, R32, R34, R35): two states that differ
only in KEY, RK, STATE, CHAIN and KS answer every access alike, and differ afterwards only there. -/
def Obligations.AccessesDoNotRevealKeyMaterial : Prop :=
  ∀ (a : Access) (s : State) (key cipherState chain ks : Block) (rk : RoundKeys),
    let s' := { s with key := key, rk := rk, cipherState := cipherState, chain := chain, ks := ks }
    (hostAccess a s').1 = (hostAccess a s).1 ∧ irq (hostAccess a s').2 = irq (hostAccess a s).2 ∧
    ∃ key' : Block, (hostAccess a s').2 =
      { (hostAccess a s).2 with key := key', rk := rk, cipherState := cipherState, chain := chain, ks := ks }

/-- The interrupt output (60_exceptions.md R127): `irq` is 0 exactly when neither source is set and enabled; a
completion raises it when DONE_IE is set; a STATUS write of 0x12 and an IEN write of 0 clear it; acceptance clears its
DONE part. -/
def Obligations.InterruptOutput : Prop :=
  (∀ s : State, irq s = true ↔ (s.done = true ∧ s.doneIe = true) ∨ (s.err = true ∧ s.errIe = true)) ∧
  irq State.reset = false ∧
  (∀ (i : Instr) (s t : State), exec i s = .next t → s.doneIe = true → irq t = true) ∧
  (∀ s : State, irq (busWrite 0x04 0x00000012 s) = false ∧ irq (busWrite 0x08 0x00000000 s) = false) ∧
  (∀ (v : Word) (s : State), checkCmd v s = none → irq (busWrite 0x00 v s) = (s.err && s.errIe))

/-! ### The datapath -/

/-- Byte arithmetic (40_tables.md R68, R69): `xtime(x)` is `(x << 1) ^ 0x1B` if the high bit of `x` is set and
`x << 1` otherwise, in a byte; the products by 1, 2 and 3, and by 0. -/
def Obligations.FieldArithmetic : Prop :=
  ∀ x : Byte,
    xtime x = (if x.getLsbD 7 then (x <<< 1) ^^^ 0x1B else x <<< 1) ∧
    gmul x 0x01 = x ∧ gmul x 0x02 = xtime x ∧ gmul x 0x03 = xtime x ^^^ x ∧ gmul x 0x00 = 0 ∧ gmul 0x00 x = 0

/-- The S-box table agrees with its algebraic definition and is a permutation with no fixed and no opposite fixed point
(40_tables.md R71, R72); the round constants are repeated doublings of 0x01 (R73). -/
def Obligations.TablesAgreeWithTheirDefinitions : Prop :=
  sbox 0x00 = sboxAffine 0x00 ∧
  (∀ a : Byte, a ≠ 0 → ∃ b : Byte, gmul a b = 0x01 ∧ sbox a = sboxAffine b) ∧
  (∀ x y : Byte, sbox x = sbox y → x = y) ∧ (∀ x : Byte, sbox x ≠ x ∧ sbox x ≠ x ^^^ 0xFF) ∧
  rcon 1 = 0x01 ∧ (∀ j : Nat, 1 ≤ j → j ≤ 9 → rcon (j + 1) = xtime (rcon j))

/-- The key schedule (41_key_schedule.md R75 to R79, with R81's corner case): RotWord, SubWord and the round-constant
XOR byte by byte; the first four words are the key's; every later one obeys the recurrence, and byte by byte where `i` is
a multiple of 4; round-key block 0 is the key. -/
def Obligations.KeyScheduleRecurrence : Prop :=
  (∀ (q : Quad) (n : Fin 4), (rotWord q).get n = q.get (n + 1) ∧ (subWord q).get n = sbox (q.get n)) ∧
  (∀ (q : Quad) (j : Nat), 1 ≤ j → j ≤ 10 → (xorRcon q j).b0 = q.b0 ^^^ rcon j ∧ (xorRcon q j).b1 = q.b1 ∧
    (xorRcon q j).b2 = q.b2 ∧ (xorRcon q j).b3 = q.b3) ∧
  ∀ k : Block,
    (∀ c : Fin 4, (keyExpansion k)[c.val] = k.column c) ∧
    (∀ (i : Nat) (h : i + 4 < 44),
      (keyExpansion k)[i + 4] =
        (keyExpansion k)[i].xor
          (if (i + 4) % 4 = 0 then xorRcon (subWord (rotWord (keyExpansion k)[i + 3])) ((i + 4) / 4)
           else (keyExpansion k)[i + 3])) ∧
    (∀ (j : Nat) (h : 4 * j + 4 < 44),
      (keyExpansion k)[4 * j + 4] =
        ⟨(keyExpansion k)[4 * j].b0 ^^^ (sbox (keyExpansion k)[4 * j + 3].b1 ^^^ rcon (j + 1)),
         (keyExpansion k)[4 * j].b1 ^^^ sbox (keyExpansion k)[4 * j + 3].b2,
         (keyExpansion k)[4 * j].b2 ^^^ sbox (keyExpansion k)[4 * j + 3].b3,
         (keyExpansion k)[4 * j].b3 ^^^ sbox (keyExpansion k)[4 * j + 3].b0⟩) ∧
    roundKey (keyExpansion k) 0 = k

/-- The transforms byte by byte (42_cipher_core.md R85, R86, R87, with 41_key_schedule.md R80), two AddRoundKeys
restoring the State and four ShiftRows too. -/
def Obligations.TransformsByteByByte : Prop :=
  ∀ (rk : RoundKeys) (s : Block) (k : Fin 11),
    (∀ n : Fin 16, (addRoundKey rk s k).byte n =
      s.byte n ^^^ (rk[4 * k.val + n.val / 4]'(by omega)).get ⟨n.val % 4, by omega⟩) ∧
    (∀ n : Fin 16, (subBytes s).byte n = sbox (s.byte n)) ∧
    (∀ r c : Fin 4, (shiftRows s).cell r c = s.cell r ⟨(c.val + r.val) % 4, by omega⟩) ∧
    addRoundKey rk (addRoundKey rk s k) k = s ∧
    shiftRows (shiftRows (shiftRows (shiftRows s))) = s

/-- MixColumns (42_cipher_core.md R88, R89): each byte of a column is the product of the circulant's row with the
column, over `gmul`; it is linear over XOR; a column of four equal bytes is unchanged. -/
def Obligations.MixColumnsIsTheCirculant : Prop :=
  (∀ (s : Block) (r c : Fin 4), (mixColumns s).cell r c =
    gmul (s.cell r c) 0x02 ^^^ gmul (s.cell (r + 1) c) 0x03 ^^^ s.cell (r + 2) c ^^^ s.cell (r + 3) c) ∧
  (∀ s t : Block, mixColumns (s.xor t) = (mixColumns s).xor (mixColumns t)) ∧
  (∀ x : Byte, mixColumn ⟨x, x, x, x⟩ = ⟨x, x, x, x⟩)

/-- The cipher's sequence (42_cipher_core.md R92, R93): whitening, nine rounds of SubBytes, ShiftRows, MixColumns and
AddRoundKey, and a last round without MixColumns (R91, 90_conflicts.md C3); AES is the cipher under the expanded key. -/
def Obligations.CipherSequence : Prop :=
  (∀ k inp : Block, aes k inp = cipher (keyExpansion k) inp) ∧
  ∀ (rk : RoundKeys) (inp : Block),
    let round := fun (s : Block) (q : Fin 11) => addRoundKey rk (mixColumns (shiftRows (subBytes s))) q
    cipher rk inp =
      addRoundKey rk (shiftRows (subBytes
        (round (round (round (round (round (round (round (round (round
          (addRoundKey rk inp 0) 1) 2) 3) 4) 5) 6) 7) 8) 9))) 10

/-- The cipher is injective for every schedule, so for each key no two input blocks give the same output
(42_cipher_core.md R92, corner cases: each step is a bijection). -/
def Obligations.CipherIsInjective : Prop :=
  ∀ (rk : RoundKeys) (x y : Block), cipher rk x = cipher rk y → x = y

/-- OFB is self-inverse (43_ofb.md R100). -/
def Obligations.OfbIsSelfInverse : Prop :=
  ∀ (k iv : Block) (p : List Byte), ofbTransform k iv (ofbTransform k iv p) = p

/-- OFB keeps the length (43_ofb.md R101), and byte `m` of its output is byte `m` of the message XORed with the
keystream block `E^(i+1)(IV)`, `i = m div 16` (R95). -/
def Obligations.OfbKeepsTheLengthAndXorsTheKeystream : Prop :=
  ∀ (k iv : Block) (p : List Byte),
    (ofbTransform k iv p).length = p.length ∧
    ∀ (m : Nat), m < p.length →
      (ofbTransform k iv p).getD m 0 =
        p.getD m 0 ^^^ (chainAfter (aes k) (m / 16 + 1) iv).byte ⟨m % 16, by omega⟩

/-- The command-level OFB theorem (43_ofb.md R104): from any state with BUSY = 0 and `rst` released, the protocol's
commands and accesses, with any number of polls, the same in every WAIT, and the last block padded with any bytes, run
without a stop, raise no error, and the bytes the host reads are `OFBTransform(K, IV, P)`; a partial last block closes the
message, and without one it stays open. -/
def Obligations.OfbProtocolComputesTheTransform : Prop :=
  ∀ (polls : Nat) (k iv : Block) (p pad : List Byte) (s : State), s.pending = none → s.env.rst = false →
    ∃ t, ofbProtocol polls k iv p pad s = some (ofbTransform k iv p, t) ∧
      t.err = s.err ∧ t.errCode = s.errCode ∧ t.chainValid = decide (p.length % 16 = 0)

/-! ### The clock -/

/-- Latency (70_reset_and_hazards.md R140, R141, with 20_memory.md R52), for every latency function of the opcode, this
implementation's among them: acceptance starts the count at 0; from there a command stays pending for the first
`LAT(op) - 1` cycles, whatever accesses reach the port, and completes in the next one, before that cycle's access. The
numbers in the hidden counter (log 22), and at most one access in a cycle (log 23), are the model's. -/
def Obligations.CompletionAfterLatency : Prop :=
  (∀ op, 1 ≤ Config.lat op ∧ Config.lat op ≤ Config.latMax) ∧
  (∀ (v : Word) (t : TimedState), t.state.env.rst = false → checkCmd v t.state = none →
    ∃ u, timedAccess (some ⟨.write v, 0x00, .four⟩) t = .next u ∧ u.elapsed = 0 ∧ u.state.pending = decode? v) ∧
  ∀ (lat : BitVec 4 → Nat) (i : Instr) (s : State) (cs : List CycleInput),
    s.pending = some i → s.env.rst = false → (∀ c ∈ cs, c.rst = false) → cs.length < lat i.opcode →
    ∃ u, cycles lat cs { state := s, elapsed := 0 } = .next u ∧ u.state.pending = some i ∧ u.elapsed = cs.length ∧
      (cs.length + 1 = lat i.opcode → ∀ access : Option Access,
        ∃ v, exec i u.state = .next v ∧
          cycle lat { rst := false, access := access } u = timedAccess access { state := v, elapsed := 0 })

/-- The clocked block runs as the untimed one does on the clocked run's own events (70_reset_and_hazards.md R132, R140,
20_memory.md R51, R52): for every latency function and all inputs, the untimed run of `clockedEvents` (in each cycle the
level of `rst`, then the completion that falls due, then that cycle's access) ends in the state the clocked run ends in,
or stops as it stops. A cycle has at most one access (the model's choice, log 23). A cycle with `rst` sampled 1 leaves the
block's reset state; an access in it is refused (the model's choice, log 5). -/
def Obligations.ClockedRunsAreUntimedRuns : Prop :=
  (∀ (lat : BitVec 4 → Nat) (cs : List CycleInput) (t : TimedState),
    runScript (clockedEvents lat cs t) t.state =
      match cycles lat cs t with
      | .next u => .next (setScript [] u.state)
      | .fault f => .fault f
      | .refused r => .refused r) ∧
  ∀ (lat : BitVec 4 → Nat) (t : TimedState),
    (∃ u, cycle lat { rst := true, access := none } t = .next u ∧ SameBlock State.reset u.state ∧
      u.state.env = { t.state.env with rst := true }) ∧
    ∀ a : Access, cycle lat { rst := true, access := some a } t = .refused .accessDuringReset

/-! ### The host -/

/-- The lines of a host program without a bus access and with one (30_encoding.md R65): what each does to the program
counter, the temporaries and the block; a label is skipped, BNZ and BZ test `tN & mask`, CHK fails the program unless
`tN = imm32`. The model's choices: a label line is a line of its own that moves to the next line (log 17); where several
lines define the label, of which R65 says nothing, a taken branch continues at the first of them (log 21); a taken branch
to a label no line defines (log 7), and an access while `rst` is asserted (log 5), stop by name. -/
def Obligations.HostLines : Prop :=
  ∀ (s : State) (t : Fin 8) (mask v : Word) (name n : Nat) (off : BitVec 7),
    runLine (.label name) s = .next (setHost { s.env.host with pc := s.env.host.pc + 1 } s) ∧
    (labelIndex s.env.host.program name = some n →
      runLine (.bnz t mask name) s = .next (setHost { s.env.host with
        pc := if s.env.host.temps[t] &&& mask ≠ 0 then n else s.env.host.pc + 1 } s) ∧
      runLine (.bz t mask name) s = .next (setHost { s.env.host with
        pc := if s.env.host.temps[t] &&& mask = 0 then n else s.env.host.pc + 1 } s)) ∧
    (labelIndex s.env.host.program name = none →
      (s.env.host.temps[t] &&& mask ≠ 0 → runLine (.bnz t mask name) s = .fault .unknownLabel) ∧
      (s.env.host.temps[t] &&& mask = 0 → runLine (.bz t mask name) s = .fault .unknownLabel)) ∧
    (s.env.host.temps[t] = v →
      runLine (.chk t v) s = .next (setHost { s.env.host with pc := s.env.host.pc + 1 } s)) ∧
    (s.env.host.temps[t] ≠ v → runLine (.chk t v) s = .fault .checkFailed) ∧
    (s.env.rst = true →
      runLine (.wr off v) s = .refused .accessDuringReset ∧ runLine (.rd off t) s = .refused .accessDuringReset) ∧
    (s.env.rst = false → off.toNat % 4 = 0 →
      (∃ u, runLine (.wr off v) s = .next u ∧ SameBlock (busWrite off v s) u ∧
        u.env.host = { s.env.host with pc := s.env.host.pc + 1 }) ∧
      (∃ u, runLine (.rd off t) s = .next u ∧ SameBlock s u ∧
        u.env.host = { s.env.host with
          pc := s.env.host.pc + 1, temps := s.env.host.temps.set t.val (busRead off s),
          results := s.env.host.results ++ [busRead off s] }))

/-- The pseudo-instructions as programs (30_encoding.md R66): WRBLK leaves the block in its register (for KEY, with the
schedule and the message invalid), RDBLK returns the register's four parts in its temporaries and changes no block
state, WAIT goes back to its label while BUSY = 1 and passes when BUSY = 0, ISSUE writes the command's word to CMD,
CLRST clears DONE and the error, and RUN is ISSUE, then WAIT. -/
def Obligations.PseudoInstructionsRun : Prop :=
  (∀ (x : BlockReg) (b : Block) (s : State), x ≠ .dout → s.pending = none → s.env.rst = false →
    s.env.host.program = expandPseudo (.wrblk x b) → s.env.host.pc = 0 →
    ∃ t, runScript [.program, .program, .program, .program] s = .next t ∧ t.env.host.pc = 4 ∧
      (x = .key → SameBlock { s with key := b, keyValid := false, chainValid := false } t) ∧
      (x = .iv → SameBlock { s with iv := b } t) ∧ (x = .din → SameBlock { s with din := b } t)) ∧
  (∀ (x : BlockReg) (ta tb tc td : Fin 8) (s : State), x ≠ .key → s.env.rst = false →
    s.env.host.program = expandPseudo (.rdblk x ta tb tc td) → s.env.host.pc = 0 →
    ∃ t, runScript [.program, .program, .program, .program] s = .next t ∧ t.env.host.pc = 4 ∧ SameBlock s t ∧
      t.env.host.results = s.env.host.results ++
        [busRead (BlockReg.offset x 0) s, busRead (BlockReg.offset x 1) s, busRead (BlockReg.offset x 2) s,
         busRead (BlockReg.offset x 3) s] ∧
      t.env.host.temps =
        (((s.env.host.temps.set ta.val (busRead (BlockReg.offset x 0) s)).set tb.val
          (busRead (BlockReg.offset x 1) s)).set tc.val (busRead (BlockReg.offset x 2) s)).set td.val
            (busRead (BlockReg.offset x 3) s)) ∧
  (∀ (fresh : Nat) (s : State), s.env.rst = false → s.env.host.program = expandPseudo (.wait fresh) →
    s.env.host.pc = 0 →
    ∃ t, runScript [.program, .program, .program] s = .next t ∧ SameBlock s t ∧
      t.env.host.pc = if s.busy then 0 else 3) ∧
  (∀ (i : Instr) (s : State), s.env.rst = false → s.env.host.program = expandPseudo (.issue i) →
    s.env.host.pc = 0 →
    ∃ t, runScript [.program] s = .next t ∧ SameBlock (writeCmd (encode i) s) t) ∧
  (∀ s : State, s.env.rst = false → s.env.host.program = expandPseudo .clrst → s.env.host.pc = 0 →
    ∃ t, runScript [.program] s = .next t ∧ SameBlock { s with done := false, err := false, errCode := 0x0 } t) ∧
  (∀ (i : Instr) (fresh : Nat),
    expandPseudo (.run i fresh) = expandPseudo (.issue i) ++ expandPseudo (.wait fresh))

/-- Address decoding (20_memory.md R41), for every BASE, this platform's among them: the block sees exactly the accesses
routed to the 0x80 bytes from BASE, at the offset of address bits [6:0]; a BASE that is a multiple of 0x80 makes that
the distance from BASE. -/
def Obligations.WindowAddressDecoding : Prop :=
  ∀ (base addr : Nat) (kind : AccessKind) (size : AccessSize),
    ((∃ a, accessAt base addr kind size = some a) ↔ base ≤ addr ∧ addr < base + 0x80) ∧
    (∀ a, accessAt base addr kind size = some a →
      a.kind = kind ∧ a.size = size ∧ a.off.toNat = addr % 0x80 ∧ (base % 0x80 = 0 → a.off.toNat = addr - base))

/-- What a write is answered with (20_memory.md R43): OKAY or ERROR by its size and offset, and rdata 0. For a write
answered ERROR that rdata is the model's choice (log 20); the spec gives it for an OKAY write only. -/
def Obligations.WriteResponses : Prop :=
  ∀ (v : Word) (off : BitVec 7) (size : AccessSize) (s : State),
    (hostAccess ⟨.write v, off, size⟩ s).1 =
      ⟨if size = .four ∧ off.toNat % 4 = 0 then .okay else .error, 0x00000000⟩
end

