-- ==== Sys2Proof/Laws/Bytes.lean ====
section
/-! SUPPORT. Laws/Bytes.lean: indexing, extensionality, XOR and packing of 4-byte words and blocks. -/

namespace Sys2Proof

@[ext] theorem Quad.ext_get {a b : Quad} (h : ∀ n, a.get n = b.get n) : a = b := by
  obtain ⟨a0, a1, a2, a3⟩ := a
  obtain ⟨b0, b1, b2, b3⟩ := b
  have h0 : a0 = b0 := h 0
  have h1 : a1 = b1 := h 1
  have h2 : a2 = b2 := h 2
  have h3 : a3 = b3 := h 3
  subst h0 h1 h2 h3
  rfl

theorem Block.ext_column {a b : Block} (h : ∀ k, a.column k = b.column k) : a = b := by
  obtain ⟨a0, a1, a2, a3⟩ := a
  obtain ⟨b0, b1, b2, b3⟩ := b
  have h0 : a0 = b0 := h 0
  have h1 : a1 = b1 := h 1
  have h2 : a2 = b2 := h 2
  have h3 : a3 = b3 := h 3
  subst h0 h1 h2 h3
  rfl

/-- Two States with the same cells are equal. -/
theorem Block.ext_cell {a b : Block} (h : ∀ r c, a.cell r c = b.cell r c) : a = b :=
  Block.ext_column fun c => Quad.ext_get fun r => h r c

@[simp] theorem Quad.get_ofFn (f : Fin 4 → Byte) (n : Fin 4) : (Quad.ofFn f).get n = f n := by
  fin_cases n <;> rfl

@[simp] theorem Quad.get_map (f : Byte → Byte) (q : Quad) (n : Fin 4) : (q.map f).get n = f (q.get n) := by
  fin_cases n <;> rfl

@[simp] theorem Quad.get_xor (a b : Quad) (n : Fin 4) : (a.xor b).get n = a.get n ^^^ b.get n := by
  fin_cases n <;> rfl

@[simp] theorem Block.column_ofColumns (f : Fin 4 → Quad) (k : Fin 4) : (Block.ofColumns f).column k = f k := by
  fin_cases k <;> rfl

@[simp] theorem Block.column_map (f : Byte → Byte) (b : Block) (k : Fin 4) :
    (b.map f).column k = (b.column k).map f := by
  fin_cases k <;> rfl

@[simp] theorem Block.column_xor (a b : Block) (k : Fin 4) :
    (a.xor b).column k = (a.column k).xor (b.column k) := by
  fin_cases k <;> rfl

@[simp] theorem Block.column_setColumn (b : Block) (k j : Fin 4) (q : Quad) :
    (b.setColumn k q).column j = if j = k then q else b.column j := by
  fin_cases k <;> fin_cases j <;> rfl

@[simp] theorem Block.cell_ofCells (f : Fin 4 → Fin 4 → Byte) (r c : Fin 4) :
    (Block.ofCells f).cell r c = f r c := by
  simp [Block.ofCells, Block.cell]

@[simp] theorem Block.cell_map (f : Byte → Byte) (b : Block) (r c : Fin 4) :
    (b.map f).cell r c = f (b.cell r c) := by
  simp [Block.cell]

@[simp] theorem Block.cell_xor (a b : Block) (r c : Fin 4) :
    (a.xor b).cell r c = a.cell r c ^^^ b.cell r c := by
  simp [Block.cell]

@[simp] theorem Block.byte_ofBytes (f : Fin 16 → Byte) (n : Fin 16) : (Block.ofBytes f).byte n = f n := by
  fin_cases n <;> rfl

@[simp] theorem Block.ofBytes_byte (b : Block) : Block.ofBytes b.byte = b := rfl

@[simp] theorem Block.byte_map (f : Byte → Byte) (b : Block) (n : Fin 16) : (b.map f).byte n = f (b.byte n) := by
  simp [Block.byte]

@[simp] theorem Block.byte_xor (a b : Block) (n : Fin 16) : (a.xor b).byte n = a.byte n ^^^ b.byte n := by
  simp [Block.byte]

@[simp] theorem loadState_eq (b : Block) : loadState b = b := rfl

@[simp] theorem storeState_eq (b : Block) : storeState b = b := rfl

/-- XOR twice with the same word restores it (40_tables.md R67). -/
@[simp] theorem Quad.xor_xor_cancel (a b : Quad) : (a.xor b).xor b = a := by
  ext n
  simp

/-- XOR twice with the same block restores it (40_tables.md R67). -/
@[simp] theorem Block.xor_xor_cancel (a b : Block) : (a.xor b).xor b = a :=
  Block.ext_column fun k => by simp

@[simp] theorem Block.length_toBytes (b : Block) : b.toBytes.length = 16 := rfl

/-- Byte `n` of the byte list of a block. -/
theorem Block.getD_toBytes (b : Block) (n : Fin 16) : b.toBytes.getD n.val 0 = b.byte n := by
  fin_cases n <;> rfl

/-- Reading what was written (20_memory.md R46). -/
@[simp] theorem Quad.pack_unpack (v : Word) : (Quad.unpack v).pack = v := by
  apply BitVec.eq_of_getLsbD_eq
  intro i hi
  simp only [Quad.pack, Quad.unpack, BitVec.getLsbD_append, BitVec.getLsbD_extractLsb']
  have : i < 8 ∨ (8 ≤ i ∧ i < 16) ∨ (16 ≤ i ∧ i < 24) ∨ (24 ≤ i ∧ i < 32) := by omega
  rcases this with h | h | h | h
  · simp [h]
  · have e1 : ¬ i < 8 := by omega
    have e2 : i - 8 < 8 := by omega
    simp [e1, e2, show 8 + (i - 8) = i by omega]
  · have e1 : ¬ i < 8 := by omega
    have e2 : ¬ i - 8 < 8 := by omega
    have e3 : i - 8 - 8 < 8 := by omega
    simp [e1, e2, e3, show 16 + (i - 8 - 8) = i by omega]
  · have e1 : ¬ i < 8 := by omega
    have e2 : ¬ i - 8 < 8 := by omega
    have e3 : ¬ i - 8 - 8 < 8 := by omega
    have e4 : i - 8 - 8 - 8 < 8 := by omega
    simp [e1, e2, e3, e4, show 24 + (i - 8 - 8 - 8) = i by omega]

/-- The bytes of a packed word (20_memory.md R46). -/
@[simp] theorem Quad.unpack_pack (q : Quad) : Quad.unpack q.pack = q := by
  have key : ∀ (a b c d : Byte) (k : Nat) (x : Byte),
      (∀ i, i < 8 → (a ++ b ++ c ++ d : BitVec 32).getLsbD (k + i) = x.getLsbD i) →
      (a ++ b ++ c ++ d : BitVec 32).extractLsb' k 8 = x := by
    intro a b c d k x h
    apply BitVec.eq_of_getLsbD_eq
    intro i hi
    rw [BitVec.getLsbD_extractLsb', h i hi]
    simp [hi]
  obtain ⟨a, b, c, d⟩ := q
  simp only [Quad.unpack, Quad.pack]
  congr 1
  · apply key
    intro i hi
    simp only [BitVec.getLsbD_append]
    simp [show ¬ 24 + i < 8 by omega, show ¬ 24 + i - 8 < 8 by omega, show ¬ 24 + i - 8 - 8 < 8 by omega,
      show 24 + i - 8 - 8 - 8 = i by omega]
  · apply key
    intro i hi
    simp only [BitVec.getLsbD_append]
    simp [show ¬ 16 + i < 8 by omega, show ¬ 16 + i - 8 < 8 by omega, show 16 + i - 8 - 8 = i by omega, hi]
  · apply key
    intro i hi
    simp only [BitVec.getLsbD_append]
    simp [show ¬ 8 + i < 8 by omega, hi]
  · apply key
    intro i hi
    simp only [BitVec.getLsbD_append]
    simp [hi]

/-- A register reads as it was written; the other three keep their value (20_memory.md R46). -/
@[simp] theorem pack_unpack (b : Block) (v : Word) (k j : Fin 4) :
    pack (unpack b v k) j = if j = k then v else pack b j := by
  unfold pack unpack
  rw [Block.column_setColumn]
  split <;> simp

/-- Four register writes replace the whole block (20_memory.md R46). -/
theorem unpack_all (b c : Block) :
    unpack (unpack (unpack (unpack b (pack c 0) 0) (pack c 1) 1) (pack c 2) 2) (pack c 3) 3 = c := by
  refine Block.ext_column fun k => ?_
  simp only [unpack, pack, Block.column_setColumn, Quad.unpack_pack]
  fin_cases k <;> rfl

/-- The block whose registers are those of `b` is `b` (20_memory.md R46). -/
@[simp] theorem ofRegs_pack (b : Block) : Block.ofRegs (pack b 0) (pack b 1) (pack b 2) (pack b 3) = b := by
  simp only [Block.ofRegs, pack, Quad.unpack_pack]
  rfl

end Sys2Proof
end

