-- ==== Sys2Proof/Laws/Cipher.lean ====
section
/-! SUPPORT. Laws/Cipher.lean: doubling is linear over XOR (40_tables.md R68), and the order of MixColumn
(42_cipher_core.md R88). -/

namespace Sys2Proof

/-- `xtime` is linear over XOR (R68). -/
theorem xtime_xor (x y : Byte) : xtime (x ^^^ y) = xtime x ^^^ xtime y := by
  unfold xtime
  rw [BitVec.getLsbD_xor, BitVec.setWidth_xor, BitVec.shiftLeft_xor_distrib]
  cases x.getLsbD 7 <;> cases y.getLsbD 7 <;> simp [BitVec.setWidth_xor]
  · ac_rfl
  · ac_rfl
  · rw [show ∀ a b c : Byte, a ^^^ c ^^^ (b ^^^ c) = a ^^^ b ^^^ (c ^^^ c) by intros; ac_rfl]
    simp

theorem xor_left_comm8 (x y z : Byte) : x ^^^ (y ^^^ z) = y ^^^ (x ^^^ z) := by
  ac_rfl

theorem xor_cancel8 (x y : Byte) : x ^^^ (x ^^^ y) = y := by
  simp

/-- MixColumn twice: the coefficients are 0x05 and 0x04 (R69, R88). -/
theorem mixColumn_mixColumn (a : Quad) : mixColumn (mixColumn a) =
   ⟨xtime (xtime a.b0) ^^^ xtime (xtime a.b2) ^^^ a.b0, xtime (xtime a.b1) ^^^ xtime (xtime a.b3) ^^^ a.b1,
    xtime (xtime a.b2) ^^^ xtime (xtime a.b0) ^^^ a.b2, xtime (xtime a.b3) ^^^ xtime (xtime a.b1) ^^^ a.b3⟩ := by
  simp only [mixColumn, m2, m3, xtime_xor]
  generalize xtime (xtime a.b0) = p2
  generalize xtime (xtime a.b1) = q2
  generalize xtime (xtime a.b2) = r2
  generalize xtime (xtime a.b3) = s2
  generalize xtime a.b0 = p1
  generalize xtime a.b1 = q1
  generalize xtime a.b2 = r1
  generalize xtime a.b3 = s1
  obtain ⟨p, q, r, s⟩ := a
  congr 1 <;> simp only [BitVec.xor_assoc, BitVec.xor_comm, xor_left_comm8, BitVec.xor_self, xor_cancel8,
    BitVec.xor_zero]

/-- Four MixColumns restore a column, so MixColumn is a bijection (R88). -/
theorem mixColumn_four (a : Quad) : mixColumn (mixColumn (mixColumn (mixColumn a))) = a := by
  obtain ⟨p, q, r, s⟩ := a
  rw [mixColumn_mixColumn, mixColumn_mixColumn]
  simp only [xtime_xor]
  congr 1 <;> simp only [BitVec.xor_assoc, BitVec.xor_comm, xor_left_comm8, BitVec.xor_self, xor_cancel8,
    BitVec.xor_zero]

end Sys2Proof
end

