-- ==== Sys2Proof/Laws/Decode.lean ====
section
/-! SUPPORT. Laws/Decode.lean: the fields of a command word (30_encoding.md R57) and what the decoder can answer. -/

namespace Sys2Proof

/-- The fields of `CMDWORD(op, len)` (R57). -/
theorem fields_cmdWord : ∀ op len : BitVec 4,
    opField (cmdWord op len) = op ∧ lenField (cmdWord op len) = len ∧ reservedLow (cmdWord op len) = 0 ∧
      reservedHigh (cmdWord op len) = 0 := by
  decide

@[simp] theorem opField_cmdWord (op len : BitVec 4) : opField (cmdWord op len) = op := (fields_cmdWord op len).1

@[simp] theorem lenField_cmdWord (op len : BitVec 4) : lenField (cmdWord op len) = len :=
  (fields_cmdWord op len).2.1

@[simp] theorem reservedLow_cmdWord (op len : BitVec 4) : reservedLow (cmdWord op len) = 0 :=
  (fields_cmdWord op len).2.2.1

@[simp] theorem reservedHigh_cmdWord (op len : BitVec 4) : reservedHigh (cmdWord op len) = 0 :=
  (fields_cmdWord op len).2.2.2

/-- A word is its four fields, in order (R57). -/
theorem word_fields (w : Word) :
    (reservedHigh w ++ lenField w ++ reservedLow w ++ opField w : BitVec 32) = w := by
  apply BitVec.eq_of_getLsbD_eq
  intro i hi
  simp only [reservedHigh, lenField, reservedLow, opField, BitVec.getLsbD_append, BitVec.getLsbD_extractLsb']
  have : i < 4 ∨ (4 ≤ i ∧ i < 8) ∨ (8 ≤ i ∧ i < 12) ∨ (12 ≤ i ∧ i < 32) := by omega
  rcases this with h | h | h | h
  · simp [h]
  · simp [show ¬ i < 4 by omega, show i - 4 < 4 by omega, show 4 + (i - 4) = i by omega]
  · simp [show ¬ i < 4 by omega, show ¬ i - 4 < 4 by omega, show i - 4 - 4 < 4 by omega,
      show 8 + (i - 4 - 4) = i by omega]
  · simp [show ¬ i < 4 by omega, show ¬ i - 4 < 4 by omega, show ¬ i - 4 - 4 < 4 by omega,
      show i - 4 - 4 - 4 < 20 by omega, show 12 + (i - 4 - 4 - 4) = i by omega]

/-- A word without reserved bits is `CMDWORD` of its fields (R57). -/
theorem cmdWord_fields {w : Word} (hl : reservedLow w = 0) (hh : reservedHigh w = 0) :
    cmdWord (opField w) (lenField w) = w := by
  have h := word_fields w
  rw [hl, hh] at h
  have all : ∀ op len : BitVec 4, cmdWord op len = (0#20 ++ len ++ 0#4 ++ op : BitVec 32) := by decide
  rw [all]
  exact h

/-- What the opcode map answers (R58). -/
theorem commandOf_opcode {op len : BitVec 4} {i : Instr} (h : commandOf op len = .ok i) :
    i.opcode = op ∧ i.len = (if op = 0x5 then len else 0) := by
  have all : ∀ op len : BitVec 4, ∀ j ∈ (commandOf op len).toOption, j.opcode = op ∧ j.len = (if op = 0x5 then len else 0) := by
    decide
  exact all op len i (by simp [h, Except.toOption])

/-- `decode?` and `decode` agree. -/
theorem decode?_eq_some {w : Word} {i : Instr} : decode? w = some i ↔ decode w = .ok i := by
  unfold decode?
  split <;> simp_all

/-- A word that decodes has no reserved bits, and its fields are the command's (R60). -/
theorem decode_ok {w : Word} {i : Instr} (h : decode w = .ok i) :
    reservedHigh w = 0 ∧ reservedLow w = 0 ∧ i.opcode = opField w ∧ i.len = lenField w := by
  unfold decode at h
  split at h
  · cases h
  rename_i h1
  split at h
  · cases h
  split at h
  · cases h
  rename_i h2 h3
  push Not at h1 h3
  obtain ⟨hop, hlen⟩ := commandOf_opcode h
  refine ⟨h1.1, h1.2, hop, ?_⟩
  by_cases h5 : opField w = 0x5
  · simpa [h5] using hlen
  · simpa [h5, h3 h5] using hlen

end Sys2Proof
end

