-- ==== Sys2Proof/Laws/State.lean ====
section
/-! SUPPORT. Laws/State.lean: what every field is after each shared operation, one lemma per field and operation, so that
no later proof unfolds a record update. -/

namespace Sys2Proof.Machine

variable (s : State)

@[simp] theorem retire_cmdLast : (retire s).cmdLast = s.cmdLast := rfl
@[simp] theorem retire_done : (retire s).done = true := rfl
@[simp] theorem retire_keyValid : (retire s).keyValid = s.keyValid := rfl
@[simp] theorem retire_chainValid : (retire s).chainValid = s.chainValid := rfl
@[simp] theorem retire_err : (retire s).err = s.err := rfl
@[simp] theorem retire_errCode : (retire s).errCode = s.errCode := rfl
@[simp] theorem retire_doneIe : (retire s).doneIe = s.doneIe := rfl
@[simp] theorem retire_errIe : (retire s).errIe = s.errIe := rfl
@[simp] theorem retire_key : (retire s).key = s.key := rfl
@[simp] theorem retire_iv : (retire s).iv = s.iv := rfl
@[simp] theorem retire_din : (retire s).din = s.din := rfl
@[simp] theorem retire_dout : (retire s).dout = s.dout := rfl
@[simp] theorem retire_rk : (retire s).rk = s.rk := rfl
@[simp] theorem retire_cipherState : (retire s).cipherState = s.cipherState := rfl
@[simp] theorem retire_chain : (retire s).chain = s.chain := rfl
@[simp] theorem retire_ks : (retire s).ks = s.ks := rfl
@[simp] theorem retire_pending : (retire s).pending = none := rfl
@[simp] theorem retire_env : (retire s).env = s.env := rfl

@[simp] theorem accept_cmdLast (v : Word) : (accept v s).cmdLast = v := rfl
@[simp] theorem accept_done (v : Word) : (accept v s).done = false := rfl
@[simp] theorem accept_keyValid (v : Word) : (accept v s).keyValid = s.keyValid := rfl
@[simp] theorem accept_chainValid (v : Word) : (accept v s).chainValid = s.chainValid := rfl
@[simp] theorem accept_err (v : Word) : (accept v s).err = s.err := rfl
@[simp] theorem accept_errCode (v : Word) : (accept v s).errCode = s.errCode := rfl
@[simp] theorem accept_doneIe (v : Word) : (accept v s).doneIe = s.doneIe := rfl
@[simp] theorem accept_errIe (v : Word) : (accept v s).errIe = s.errIe := rfl
@[simp] theorem accept_key (v : Word) : (accept v s).key = s.key := rfl
@[simp] theorem accept_iv (v : Word) : (accept v s).iv = s.iv := rfl
@[simp] theorem accept_din (v : Word) : (accept v s).din = s.din := rfl
@[simp] theorem accept_dout (v : Word) : (accept v s).dout = s.dout := rfl
@[simp] theorem accept_rk (v : Word) : (accept v s).rk = s.rk := rfl
@[simp] theorem accept_cipherState (v : Word) : (accept v s).cipherState = s.cipherState := rfl
@[simp] theorem accept_chain (v : Word) : (accept v s).chain = s.chain := rfl
@[simp] theorem accept_ks (v : Word) : (accept v s).ks = s.ks := rfl
@[simp] theorem accept_pending (v : Word) : (accept v s).pending = decode? v := rfl
@[simp] theorem accept_env (v : Word) : (accept v s).env = s.env := rfl

@[simp] theorem setKey_cmdLast (k : Fin 4) (v : Word) : (setKey k v s).cmdLast = s.cmdLast := rfl
@[simp] theorem setKey_done (k : Fin 4) (v : Word) : (setKey k v s).done = s.done := rfl
@[simp] theorem setKey_keyValid (k : Fin 4) (v : Word) : (setKey k v s).keyValid = false := rfl
@[simp] theorem setKey_chainValid (k : Fin 4) (v : Word) : (setKey k v s).chainValid = false := rfl
@[simp] theorem setKey_err (k : Fin 4) (v : Word) : (setKey k v s).err = s.err := rfl
@[simp] theorem setKey_errCode (k : Fin 4) (v : Word) : (setKey k v s).errCode = s.errCode := rfl
@[simp] theorem setKey_doneIe (k : Fin 4) (v : Word) : (setKey k v s).doneIe = s.doneIe := rfl
@[simp] theorem setKey_errIe (k : Fin 4) (v : Word) : (setKey k v s).errIe = s.errIe := rfl
@[simp] theorem setKey_key (k : Fin 4) (v : Word) : (setKey k v s).key = unpack s.key v k := rfl
@[simp] theorem setKey_iv (k : Fin 4) (v : Word) : (setKey k v s).iv = s.iv := rfl
@[simp] theorem setKey_din (k : Fin 4) (v : Word) : (setKey k v s).din = s.din := rfl
@[simp] theorem setKey_dout (k : Fin 4) (v : Word) : (setKey k v s).dout = s.dout := rfl
@[simp] theorem setKey_rk (k : Fin 4) (v : Word) : (setKey k v s).rk = s.rk := rfl
@[simp] theorem setKey_cipherState (k : Fin 4) (v : Word) : (setKey k v s).cipherState = s.cipherState := rfl
@[simp] theorem setKey_chain (k : Fin 4) (v : Word) : (setKey k v s).chain = s.chain := rfl
@[simp] theorem setKey_ks (k : Fin 4) (v : Word) : (setKey k v s).ks = s.ks := rfl
@[simp] theorem setKey_pending (k : Fin 4) (v : Word) : (setKey k v s).pending = s.pending := rfl
@[simp] theorem setKey_env (k : Fin 4) (v : Word) : (setKey k v s).env = s.env := rfl

@[simp] theorem setIv_cmdLast (k : Fin 4) (v : Word) : (setIv k v s).cmdLast = s.cmdLast := rfl
@[simp] theorem setIv_done (k : Fin 4) (v : Word) : (setIv k v s).done = s.done := rfl
@[simp] theorem setIv_keyValid (k : Fin 4) (v : Word) : (setIv k v s).keyValid = s.keyValid := rfl
@[simp] theorem setIv_chainValid (k : Fin 4) (v : Word) : (setIv k v s).chainValid = s.chainValid := rfl
@[simp] theorem setIv_err (k : Fin 4) (v : Word) : (setIv k v s).err = s.err := rfl
@[simp] theorem setIv_errCode (k : Fin 4) (v : Word) : (setIv k v s).errCode = s.errCode := rfl
@[simp] theorem setIv_doneIe (k : Fin 4) (v : Word) : (setIv k v s).doneIe = s.doneIe := rfl
@[simp] theorem setIv_errIe (k : Fin 4) (v : Word) : (setIv k v s).errIe = s.errIe := rfl
@[simp] theorem setIv_key (k : Fin 4) (v : Word) : (setIv k v s).key = s.key := rfl
@[simp] theorem setIv_iv (k : Fin 4) (v : Word) : (setIv k v s).iv = unpack s.iv v k := rfl
@[simp] theorem setIv_din (k : Fin 4) (v : Word) : (setIv k v s).din = s.din := rfl
@[simp] theorem setIv_dout (k : Fin 4) (v : Word) : (setIv k v s).dout = s.dout := rfl
@[simp] theorem setIv_rk (k : Fin 4) (v : Word) : (setIv k v s).rk = s.rk := rfl
@[simp] theorem setIv_cipherState (k : Fin 4) (v : Word) : (setIv k v s).cipherState = s.cipherState := rfl
@[simp] theorem setIv_chain (k : Fin 4) (v : Word) : (setIv k v s).chain = s.chain := rfl
@[simp] theorem setIv_ks (k : Fin 4) (v : Word) : (setIv k v s).ks = s.ks := rfl
@[simp] theorem setIv_pending (k : Fin 4) (v : Word) : (setIv k v s).pending = s.pending := rfl
@[simp] theorem setIv_env (k : Fin 4) (v : Word) : (setIv k v s).env = s.env := rfl

@[simp] theorem setDin_cmdLast (k : Fin 4) (v : Word) : (setDin k v s).cmdLast = s.cmdLast := rfl
@[simp] theorem setDin_done (k : Fin 4) (v : Word) : (setDin k v s).done = s.done := rfl
@[simp] theorem setDin_keyValid (k : Fin 4) (v : Word) : (setDin k v s).keyValid = s.keyValid := rfl
@[simp] theorem setDin_chainValid (k : Fin 4) (v : Word) : (setDin k v s).chainValid = s.chainValid := rfl
@[simp] theorem setDin_err (k : Fin 4) (v : Word) : (setDin k v s).err = s.err := rfl
@[simp] theorem setDin_errCode (k : Fin 4) (v : Word) : (setDin k v s).errCode = s.errCode := rfl
@[simp] theorem setDin_doneIe (k : Fin 4) (v : Word) : (setDin k v s).doneIe = s.doneIe := rfl
@[simp] theorem setDin_errIe (k : Fin 4) (v : Word) : (setDin k v s).errIe = s.errIe := rfl
@[simp] theorem setDin_key (k : Fin 4) (v : Word) : (setDin k v s).key = s.key := rfl
@[simp] theorem setDin_iv (k : Fin 4) (v : Word) : (setDin k v s).iv = s.iv := rfl
@[simp] theorem setDin_din (k : Fin 4) (v : Word) : (setDin k v s).din = unpack s.din v k := rfl
@[simp] theorem setDin_dout (k : Fin 4) (v : Word) : (setDin k v s).dout = s.dout := rfl
@[simp] theorem setDin_rk (k : Fin 4) (v : Word) : (setDin k v s).rk = s.rk := rfl
@[simp] theorem setDin_cipherState (k : Fin 4) (v : Word) : (setDin k v s).cipherState = s.cipherState := rfl
@[simp] theorem setDin_chain (k : Fin 4) (v : Word) : (setDin k v s).chain = s.chain := rfl
@[simp] theorem setDin_ks (k : Fin 4) (v : Word) : (setDin k v s).ks = s.ks := rfl
@[simp] theorem setDin_pending (k : Fin 4) (v : Word) : (setDin k v s).pending = s.pending := rfl
@[simp] theorem setDin_env (k : Fin 4) (v : Word) : (setDin k v s).env = s.env := rfl

@[simp] theorem writeIen_cmdLast (v : Word) : (writeIen v s).cmdLast = s.cmdLast := rfl
@[simp] theorem writeIen_done (v : Word) : (writeIen v s).done = s.done := rfl
@[simp] theorem writeIen_keyValid (v : Word) : (writeIen v s).keyValid = s.keyValid := rfl
@[simp] theorem writeIen_chainValid (v : Word) : (writeIen v s).chainValid = s.chainValid := rfl
@[simp] theorem writeIen_err (v : Word) : (writeIen v s).err = s.err := rfl
@[simp] theorem writeIen_errCode (v : Word) : (writeIen v s).errCode = s.errCode := rfl
@[simp] theorem writeIen_doneIe (v : Word) : (writeIen v s).doneIe = v.getLsbD 0 := rfl
@[simp] theorem writeIen_errIe (v : Word) : (writeIen v s).errIe = v.getLsbD 1 := rfl
@[simp] theorem writeIen_key (v : Word) : (writeIen v s).key = s.key := rfl
@[simp] theorem writeIen_iv (v : Word) : (writeIen v s).iv = s.iv := rfl
@[simp] theorem writeIen_din (v : Word) : (writeIen v s).din = s.din := rfl
@[simp] theorem writeIen_dout (v : Word) : (writeIen v s).dout = s.dout := rfl
@[simp] theorem writeIen_rk (v : Word) : (writeIen v s).rk = s.rk := rfl
@[simp] theorem writeIen_cipherState (v : Word) : (writeIen v s).cipherState = s.cipherState := rfl
@[simp] theorem writeIen_chain (v : Word) : (writeIen v s).chain = s.chain := rfl
@[simp] theorem writeIen_ks (v : Word) : (writeIen v s).ks = s.ks := rfl
@[simp] theorem writeIen_pending (v : Word) : (writeIen v s).pending = s.pending := rfl
@[simp] theorem writeIen_env (v : Word) : (writeIen v s).env = s.env := rfl

@[simp] theorem clearError_cmdLast : (clearError s).cmdLast = s.cmdLast := rfl
@[simp] theorem clearError_done : (clearError s).done = s.done := rfl
@[simp] theorem clearError_keyValid : (clearError s).keyValid = s.keyValid := rfl
@[simp] theorem clearError_chainValid : (clearError s).chainValid = s.chainValid := rfl
@[simp] theorem clearError_err : (clearError s).err = false := rfl
@[simp] theorem clearError_errCode : (clearError s).errCode = 0x0 := rfl
@[simp] theorem clearError_doneIe : (clearError s).doneIe = s.doneIe := rfl
@[simp] theorem clearError_errIe : (clearError s).errIe = s.errIe := rfl
@[simp] theorem clearError_key : (clearError s).key = s.key := rfl
@[simp] theorem clearError_iv : (clearError s).iv = s.iv := rfl
@[simp] theorem clearError_din : (clearError s).din = s.din := rfl
@[simp] theorem clearError_dout : (clearError s).dout = s.dout := rfl
@[simp] theorem clearError_rk : (clearError s).rk = s.rk := rfl
@[simp] theorem clearError_cipherState : (clearError s).cipherState = s.cipherState := rfl
@[simp] theorem clearError_chain : (clearError s).chain = s.chain := rfl
@[simp] theorem clearError_ks : (clearError s).ks = s.ks := rfl
@[simp] theorem clearError_pending : (clearError s).pending = s.pending := rfl
@[simp] theorem clearError_env : (clearError s).env = s.env := rfl

@[simp] theorem raiseError_cmdLast (e : HostError) : (raiseError e s).cmdLast = s.cmdLast := by unfold raiseError; split <;> simp_all
@[simp] theorem raiseError_done (e : HostError) : (raiseError e s).done = s.done := by unfold raiseError; split <;> simp_all
@[simp] theorem raiseError_keyValid (e : HostError) : (raiseError e s).keyValid = s.keyValid := by unfold raiseError; split <;> simp_all
@[simp] theorem raiseError_chainValid (e : HostError) : (raiseError e s).chainValid = s.chainValid := by unfold raiseError; split <;> simp_all
@[simp] theorem raiseError_err (e : HostError) : (raiseError e s).err = true := by unfold raiseError; split <;> simp_all
@[simp] theorem raiseError_errCode (e : HostError) : (raiseError e s).errCode = if s.err then s.errCode else errorCode e := by unfold raiseError; split <;> simp_all
@[simp] theorem raiseError_doneIe (e : HostError) : (raiseError e s).doneIe = s.doneIe := by unfold raiseError; split <;> simp_all
@[simp] theorem raiseError_errIe (e : HostError) : (raiseError e s).errIe = s.errIe := by unfold raiseError; split <;> simp_all
@[simp] theorem raiseError_key (e : HostError) : (raiseError e s).key = s.key := by unfold raiseError; split <;> simp_all
@[simp] theorem raiseError_iv (e : HostError) : (raiseError e s).iv = s.iv := by unfold raiseError; split <;> simp_all
@[simp] theorem raiseError_din (e : HostError) : (raiseError e s).din = s.din := by unfold raiseError; split <;> simp_all
@[simp] theorem raiseError_dout (e : HostError) : (raiseError e s).dout = s.dout := by unfold raiseError; split <;> simp_all
@[simp] theorem raiseError_rk (e : HostError) : (raiseError e s).rk = s.rk := by unfold raiseError; split <;> simp_all
@[simp] theorem raiseError_cipherState (e : HostError) : (raiseError e s).cipherState = s.cipherState := by unfold raiseError; split <;> simp_all
@[simp] theorem raiseError_chain (e : HostError) : (raiseError e s).chain = s.chain := by unfold raiseError; split <;> simp_all
@[simp] theorem raiseError_ks (e : HostError) : (raiseError e s).ks = s.ks := by unfold raiseError; split <;> simp_all
@[simp] theorem raiseError_pending (e : HostError) : (raiseError e s).pending = s.pending := by unfold raiseError; split <;> simp_all
@[simp] theorem raiseError_env (e : HostError) : (raiseError e s).env = s.env := by unfold raiseError; split <;> simp_all

@[simp] theorem setRst_cmdLast (b : Bool) : (setRst b s).cmdLast = s.cmdLast := rfl
@[simp] theorem setRst_done (b : Bool) : (setRst b s).done = s.done := rfl
@[simp] theorem setRst_keyValid (b : Bool) : (setRst b s).keyValid = s.keyValid := rfl
@[simp] theorem setRst_chainValid (b : Bool) : (setRst b s).chainValid = s.chainValid := rfl
@[simp] theorem setRst_err (b : Bool) : (setRst b s).err = s.err := rfl
@[simp] theorem setRst_errCode (b : Bool) : (setRst b s).errCode = s.errCode := rfl
@[simp] theorem setRst_doneIe (b : Bool) : (setRst b s).doneIe = s.doneIe := rfl
@[simp] theorem setRst_errIe (b : Bool) : (setRst b s).errIe = s.errIe := rfl
@[simp] theorem setRst_key (b : Bool) : (setRst b s).key = s.key := rfl
@[simp] theorem setRst_iv (b : Bool) : (setRst b s).iv = s.iv := rfl
@[simp] theorem setRst_din (b : Bool) : (setRst b s).din = s.din := rfl
@[simp] theorem setRst_dout (b : Bool) : (setRst b s).dout = s.dout := rfl
@[simp] theorem setRst_rk (b : Bool) : (setRst b s).rk = s.rk := rfl
@[simp] theorem setRst_cipherState (b : Bool) : (setRst b s).cipherState = s.cipherState := rfl
@[simp] theorem setRst_chain (b : Bool) : (setRst b s).chain = s.chain := rfl
@[simp] theorem setRst_ks (b : Bool) : (setRst b s).ks = s.ks := rfl
@[simp] theorem setRst_pending (b : Bool) : (setRst b s).pending = s.pending := rfl
@[simp] theorem setRst_env (b : Bool) : (setRst b s).env = { s.env with rst := b } := rfl

@[simp] theorem setScript_cmdLast (es : List Event) : (setScript es s).cmdLast = s.cmdLast := rfl
@[simp] theorem setScript_done (es : List Event) : (setScript es s).done = s.done := rfl
@[simp] theorem setScript_keyValid (es : List Event) : (setScript es s).keyValid = s.keyValid := rfl
@[simp] theorem setScript_chainValid (es : List Event) : (setScript es s).chainValid = s.chainValid := rfl
@[simp] theorem setScript_err (es : List Event) : (setScript es s).err = s.err := rfl
@[simp] theorem setScript_errCode (es : List Event) : (setScript es s).errCode = s.errCode := rfl
@[simp] theorem setScript_doneIe (es : List Event) : (setScript es s).doneIe = s.doneIe := rfl
@[simp] theorem setScript_errIe (es : List Event) : (setScript es s).errIe = s.errIe := rfl
@[simp] theorem setScript_key (es : List Event) : (setScript es s).key = s.key := rfl
@[simp] theorem setScript_iv (es : List Event) : (setScript es s).iv = s.iv := rfl
@[simp] theorem setScript_din (es : List Event) : (setScript es s).din = s.din := rfl
@[simp] theorem setScript_dout (es : List Event) : (setScript es s).dout = s.dout := rfl
@[simp] theorem setScript_rk (es : List Event) : (setScript es s).rk = s.rk := rfl
@[simp] theorem setScript_cipherState (es : List Event) : (setScript es s).cipherState = s.cipherState := rfl
@[simp] theorem setScript_chain (es : List Event) : (setScript es s).chain = s.chain := rfl
@[simp] theorem setScript_ks (es : List Event) : (setScript es s).ks = s.ks := rfl
@[simp] theorem setScript_pending (es : List Event) : (setScript es s).pending = s.pending := rfl
@[simp] theorem setScript_env (es : List Event) : (setScript es s).env = { s.env with script := es } := rfl

@[simp] theorem setResponse_cmdLast (r : Response) : (setResponse r s).cmdLast = s.cmdLast := rfl
@[simp] theorem setResponse_done (r : Response) : (setResponse r s).done = s.done := rfl
@[simp] theorem setResponse_keyValid (r : Response) : (setResponse r s).keyValid = s.keyValid := rfl
@[simp] theorem setResponse_chainValid (r : Response) : (setResponse r s).chainValid = s.chainValid := rfl
@[simp] theorem setResponse_err (r : Response) : (setResponse r s).err = s.err := rfl
@[simp] theorem setResponse_errCode (r : Response) : (setResponse r s).errCode = s.errCode := rfl
@[simp] theorem setResponse_doneIe (r : Response) : (setResponse r s).doneIe = s.doneIe := rfl
@[simp] theorem setResponse_errIe (r : Response) : (setResponse r s).errIe = s.errIe := rfl
@[simp] theorem setResponse_key (r : Response) : (setResponse r s).key = s.key := rfl
@[simp] theorem setResponse_iv (r : Response) : (setResponse r s).iv = s.iv := rfl
@[simp] theorem setResponse_din (r : Response) : (setResponse r s).din = s.din := rfl
@[simp] theorem setResponse_dout (r : Response) : (setResponse r s).dout = s.dout := rfl
@[simp] theorem setResponse_rk (r : Response) : (setResponse r s).rk = s.rk := rfl
@[simp] theorem setResponse_cipherState (r : Response) : (setResponse r s).cipherState = s.cipherState := rfl
@[simp] theorem setResponse_chain (r : Response) : (setResponse r s).chain = s.chain := rfl
@[simp] theorem setResponse_ks (r : Response) : (setResponse r s).ks = s.ks := rfl
@[simp] theorem setResponse_pending (r : Response) : (setResponse r s).pending = s.pending := rfl
@[simp] theorem setResponse_env (r : Response) : (setResponse r s).env = { s.env with response := some r } := rfl

@[simp] theorem setHost_cmdLast (h : HostAgent) : (setHost h s).cmdLast = s.cmdLast := rfl
@[simp] theorem setHost_done (h : HostAgent) : (setHost h s).done = s.done := rfl
@[simp] theorem setHost_keyValid (h : HostAgent) : (setHost h s).keyValid = s.keyValid := rfl
@[simp] theorem setHost_chainValid (h : HostAgent) : (setHost h s).chainValid = s.chainValid := rfl
@[simp] theorem setHost_err (h : HostAgent) : (setHost h s).err = s.err := rfl
@[simp] theorem setHost_errCode (h : HostAgent) : (setHost h s).errCode = s.errCode := rfl
@[simp] theorem setHost_doneIe (h : HostAgent) : (setHost h s).doneIe = s.doneIe := rfl
@[simp] theorem setHost_errIe (h : HostAgent) : (setHost h s).errIe = s.errIe := rfl
@[simp] theorem setHost_key (h : HostAgent) : (setHost h s).key = s.key := rfl
@[simp] theorem setHost_iv (h : HostAgent) : (setHost h s).iv = s.iv := rfl
@[simp] theorem setHost_din (h : HostAgent) : (setHost h s).din = s.din := rfl
@[simp] theorem setHost_dout (h : HostAgent) : (setHost h s).dout = s.dout := rfl
@[simp] theorem setHost_rk (h : HostAgent) : (setHost h s).rk = s.rk := rfl
@[simp] theorem setHost_cipherState (h : HostAgent) : (setHost h s).cipherState = s.cipherState := rfl
@[simp] theorem setHost_chain (h : HostAgent) : (setHost h s).chain = s.chain := rfl
@[simp] theorem setHost_ks (h : HostAgent) : (setHost h s).ks = s.ks := rfl
@[simp] theorem setHost_pending (h : HostAgent) : (setHost h s).pending = s.pending := rfl
@[simp] theorem setHost_env (h : HostAgent) : (setHost h s).env = { s.env with host := h } := rfl

/-- The state with its environment replaced. -/
def setEnv (e : Env) : State := { s with env := e }

@[simp] theorem setEnv_env (e : Env) : (setEnv s e).env = e := rfl

@[simp] theorem setEnv_setEnv (e e' : Env) : setEnv (setEnv s e) e' = setEnv s e' := rfl

@[simp] theorem setEnv_self : setEnv s s.env = s := rfl

theorem setEnv_eq {e : Env} (h : s.env = e) : setEnv s e = s := by
  subst h
  rfl

@[simp] theorem setScript_setScript (es es' : List Event) : setScript es (setScript es' s) = setScript es s := rfl

theorem setScript_setResponse (es : List Event) (r : Response) :
    setScript es (setResponse r s) = setResponse r (setScript es s) := rfl

theorem setScript_setEnv (es : List Event) : setScript es s = setEnv s { s.env with script := es } := rfl

/-- A STATUS write in one update (44_commands.md R119). -/
theorem writeStatus_eq (v : Word) : writeStatus v s =
    { s with done := s.done && !v.getLsbD 1, err := s.err && !v.getLsbD 4,
             errCode := if v.getLsbD 4 then 0x0 else s.errCode } := by
  unfold writeStatus clearError
  cases v.getLsbD 1 <;> cases v.getLsbD 4 <;> simp

/-- Recording an error in one update (60_exceptions.md R124). -/
theorem raiseError_eq (e : HostError) : raiseError e s =
    { s with err := true, errCode := if s.err then s.errCode else errorCode e } := by
  obtain ⟨_, _, _, _, err, _⟩ := s
  cases err <;> simp [raiseError]

/-- Reset in one update: every element but the environment (70_reset_and_hazards.md R133). -/
@[simp] theorem resetBlock_env : (resetBlock s).env = s.env := rfl

@[simp] theorem busy_eq : s.busy = s.pending.isSome := rfl

end Sys2Proof.Machine
end

