-- ==== Sys2Proof/Laws/Ops.lean ====
section
/-! SUPPORT. Laws/Ops.lean: one lemma for each shared operation that says everything it can do: accepted writes, rejected
writes, accesses at the port. -/

namespace Sys2Proof.Machine

variable (s : State)

/-- The register map at the offsets of a 16-byte register (20_memory.md R42). -/
theorem regAt_offset (x : BlockReg) (k : Fin 4) : regAt (BlockReg.offset x k) =
    match x with
    | .key => .key k
    | .iv => .iv k
    | .din => .din k
    | .dout => .dout k := by
  cases x <;> fin_cases k <;> rfl

theorem regAt_key (k : Fin 4) : regAt (BitVec.ofNat 7 (0x10 + 4 * k.val)) = .key k := regAt_offset .key k

theorem regAt_iv (k : Fin 4) : regAt (BitVec.ofNat 7 (0x20 + 4 * k.val)) = .iv k := regAt_offset .iv k

theorem regAt_din (k : Fin 4) : regAt (BitVec.ofNat 7 (0x30 + 4 * k.val)) = .din k := regAt_offset .din k

theorem regAt_dout (k : Fin 4) : regAt (BitVec.ofNat 7 (0x40 + 4 * k.val)) = .dout k := regAt_offset .dout k

/-- A 32-bit access at an aligned offset is one the block accepts, and no other (20_memory.md R43). -/
theorem wellFormed_iff (kind : AccessKind) (off : BitVec 7) (size : AccessSize) :
    (⟨kind, off, size⟩ : Access).wellFormed = true ↔ size = .four ∧ off.toNat % 4 = 0 := by
  have h : ∀ off : BitVec 7, off.extractLsb' 0 2 = 0#2 ↔ off.toNat % 4 = 0 := by decide
  unfold Access.wellFormed
  simp [h]

/-- The offsets of a 16-byte register are aligned (20_memory.md R42). -/
theorem wellFormed_offset (kind : AccessKind) (x : BlockReg) (k : Fin 4) :
    (⟨kind, BlockReg.offset x k, .four⟩ : Access).wellFormed = true := by
  rw [wellFormed_iff]
  cases x <;> fin_cases k <;> exact ⟨rfl, rfl⟩

/-- An accepted write (20_memory.md R43). -/
theorem hostAccess_write {off : BitVec 7} (h : off.toNat % 4 = 0) (v : Word) :
    hostAccess ⟨.write v, off, .four⟩ s = (⟨.okay, 0x00000000⟩, busWrite off v s) := by
  unfold hostAccess
  rw [if_pos ((wellFormed_iff _ _ _).2 ⟨rfl, h⟩)]

/-- An accepted read (20_memory.md R43). -/
theorem hostAccess_read {off : BitVec 7} (h : off.toNat % 4 = 0) :
    hostAccess ⟨.read, off, .four⟩ s = (⟨.okay, busRead off s⟩, s) := by
  unfold hostAccess
  rw [if_pos ((wellFormed_iff _ _ _).2 ⟨rfl, h⟩)]

/-- The write of offset 0x00 is the write to CMD (20_memory.md R42). -/
theorem busWrite_cmd (v : Word) : busWrite 0x00 v s = writeCmd v s := rfl

/-- `checkDecoded` passes exactly when the three conditions of 60_exceptions.md R122 hold. -/
theorem checkDecoded_eq_none {i : Instr} :
    checkDecoded i s = none ↔ i.wellFormed = true ∧ (needsKey i = true → s.keyValid = true) ∧
      (needsChain i = true → s.chainValid = true) := by
  unfold checkDecoded
  cases i.wellFormed <;> cases needsKey i <;> cases needsChain i <;> cases s.keyValid <;> cases s.chainValid <;> simp

/-- `CheckCmd` passes exactly on a word of a command whose checks pass, while nothing is pending (R122). -/
theorem checkCmd_eq_none {v : Word} :
    checkCmd v s = none ↔ s.pending = none ∧ ∃ i, decode v = .ok i ∧ checkDecoded i s = none := by
  unfold checkCmd
  rcases hp : s.pending with _ | i
  · cases hd : decode v <;> simp [hp]
  · simp [hp]

/-- A CMD write either records its error or is accepted (44_commands.md R105, R106). -/
theorem writeCmd_cases (v : Word) :
    (∃ e, checkCmd v s = some e ∧ writeCmd v s = raiseError e s) ∨
    (∃ i, checkCmd v s = none ∧ decode v = .ok i ∧ checkDecoded i s = none ∧ s.pending = none ∧
      writeCmd v s = { s with cmdLast := v, pending := some i, done := false }) := by
  unfold writeCmd
  cases h : checkCmd v s with
  | some e => exact .inl ⟨e, rfl, rfl⟩
  | none =>
    obtain ⟨hp, i, hd, hc⟩ := (checkCmd_eq_none s).1 h
    refine .inr ⟨i, rfl, hd, hc, hp, ?_⟩
    simp [accept, decode?_eq_some.2 hd]

/-- An operand write is rejected with BUSY or takes effect (44_commands.md R116 to R118). -/
theorem operandWrite_eq (f : State → State) :
    operandWrite f s = if s.busy then raiseError .busy s else f s := by
  unfold operandWrite checkOperandWrite
  cases s.busy <;> simp

/-- What a write of a register can do to the block: nothing, an error, one of the status and enable writes, a new
pending command, or new bytes of KEY, IV or DIN. -/
theorem writeReg_cases (r : Reg) (v : Word) :
    (∃ k, r = .dout k ∧ writeReg r v s = s) ∨ (r = .reserved ∧ writeReg r v s = s) ∨
    (r = .status ∧ writeReg r v s = writeStatus v s) ∨ (r = .ien ∧ writeReg r v s = writeIen v s) ∨
    (r = .cmd ∧ writeReg r v s = writeCmd v s) ∨
    ((∃ k, r = .key k ∨ r = .iv k ∨ r = .din k) ∧ s.busy = true ∧ writeReg r v s = raiseError .busy s) ∨
    (∃ k, r = .key k ∧ s.busy = false ∧ writeReg r v s = setKey k v s) ∨
    (∃ k, r = .iv k ∧ s.busy = false ∧ writeReg r v s = setIv k v s) ∨
    (∃ k, r = .din k ∧ s.busy = false ∧ writeReg r v s = setDin k v s) := by
  cases r <;> simp only [writeReg, writeKey, writeIv, writeDin, operandWrite_eq] <;>
    cases h : s.busy <;> simp

/-- No write touches the environment. -/
@[simp] theorem writeReg_env (r : Reg) (v : Word) : (writeReg r v s).env = s.env := by
  rcases writeReg_cases s r v with ⟨_, _, h⟩ | ⟨_, h⟩ | ⟨_, h⟩ | ⟨_, h⟩ | ⟨_, h⟩ | ⟨_, _, h⟩ | ⟨_, _, _, h⟩ |
    ⟨_, _, _, h⟩ | ⟨_, _, _, h⟩ <;> rw [h]
  · rw [writeStatus_eq]
  · simp
  · rcases writeCmd_cases s v with ⟨e, _, h⟩ | ⟨i, _, _, _, _, h⟩ <;> rw [h]
    simp
  · simp
  · simp
  · simp
  · simp

/-- No access touches the environment. -/
@[simp] theorem hostAccess_env (a : Access) : (hostAccess a s).2.env = s.env := by
  unfold hostAccess
  split
  · split <;> simp [busWrite]
  · rfl

/-- A register write does not read the environment. -/
theorem writeReg_setEnv (r : Reg) (v : Word) (e : Env) :
    writeReg r v { s with env := e } = { writeReg r v s with env := e } := by
  cases r <;> simp only [writeReg, writeKey, writeIv, writeDin, operandWrite_eq, writeStatus_eq]
  · unfold writeCmd
    have : checkCmd v { s with env := e } = checkCmd v s := rfl
    rw [this]
    cases checkCmd v s <;> simp [raiseError_eq, accept]
  · rfl
  all_goals
    have hb : State.busy { s with env := e } = s.busy := rfl
    rw [hb]
    cases s.busy <;> simp [raiseError_eq, setKey, setIv, setDin]

/-- An access does not read the environment. -/
theorem hostAccess_setEnv (a : Access) (e : Env) :
    hostAccess a { s with env := e } = ((hostAccess a s).1, { (hostAccess a s).2 with env := e }) := by
  obtain ⟨kind, off, size⟩ := a
  unfold hostAccess
  split
  · cases kind with
    | read => rfl
    | write v => simp [busWrite, writeReg_setEnv]
  · rfl

/-- An access at the port is refused in reset, else answered (70_reset_and_hazards.md R132, 20_memory.md R43). -/
theorem portAccess_eq_next {a : Access} {r : Response} {t : State} (h : portAccess a s = .next (r, t)) :
    s.env.rst = false ∧ r = (hostAccess a s).1 ∧ t = setResponse (hostAccess a s).1 (hostAccess a s).2 := by
  unfold portAccess at h
  split at h
  · cases h
  · rename_i hr
    simp only [Host.Outcome.next.injEq, Prod.mk.injEq] at h
    exact ⟨by simpa using hr, h.1.symm, h.2.symm⟩

end Sys2Proof.Machine
end

