-- ==== Sys2Proof/Laws/Exec.lean ====
section
/-! SUPPORT. Laws/Exec.lean: the state a command's completion leaves, said once for all commands. -/

namespace Sys2Proof.Machine

/-- The state that the completion of `i` leaves. -/
def completed (i : Instr) (s : State) : State :=
  match exec i s with
  | .next t => t
  | .fault _ => s
  | .refused _ => s

variable (s : State)

/-- Every completion answers a next state: it never faults (60_exceptions.md R120). -/
theorem exec_eq (i : Instr) : exec i s = .next (completed i s) := by
  cases i <;> rfl

@[simp] theorem completed_env (i : Instr) : (completed i s).env = s.env := by
  cases i <;> rfl

@[simp] theorem completed_pending (i : Instr) : (completed i s).pending = none := by
  cases i <;> rfl

@[simp] theorem completed_done (i : Instr) : (completed i s).done = true := by
  cases i <;> rfl

@[simp] theorem completed_cmdLast (i : Instr) : (completed i s).cmdLast = s.cmdLast := by
  cases i <;> rfl

@[simp] theorem completed_err (i : Instr) : (completed i s).err = s.err := by
  cases i <;> rfl

@[simp] theorem completed_errCode (i : Instr) : (completed i s).errCode = s.errCode := by
  cases i <;> rfl

@[simp] theorem completed_doneIe (i : Instr) : (completed i s).doneIe = s.doneIe := by
  cases i <;> rfl

@[simp] theorem completed_errIe (i : Instr) : (completed i s).errIe = s.errIe := by
  cases i <;> rfl

/-- A completion does not read the environment. -/
theorem completed_setEnv (i : Instr) (e : Env) :
    completed i { s with env := e } = { completed i s with env := e } := by
  cases i <;> rfl

/-- A completion reads only the data registers, the valid bits and what it leaves alone: replacing the status, enable and
CMD_LAST fields before or after is the same. -/
theorem completed_setStatus (i : Instr) (cmdLast : Word) (done err doneIe errIe : Bool) (errCode : BitVec 4) :
    completed i { s with cmdLast := cmdLast, done := done, err := err, errCode := errCode, doneIe := doneIe,
                         errIe := errIe } =
      { completed i s with cmdLast := cmdLast, err := err, errCode := errCode, doneIe := doneIe, errIe := errIe } := by
  cases i <;> rfl

end Sys2Proof.Machine
end

