-- ==== Sys2Proof/Laws/KeySchedule.lean ====
section
/-! SUPPORT. Laws/KeySchedule.lean: the words of the key expansion by index (41_key_schedule.md R78, R79). -/

namespace Sys2Proof

theorem expandWords_length (k : Block) (n : Nat) : (expandWords k n).length = n + 4 := by
  induction n with
  | zero => rfl
  | succ n ih => simp [expandWords, ih]

/-- The newest-first list keeps its tail: word `i` of a longer expansion is word `i` of a shorter one. -/
theorem expandWords_getD_succ (k : Block) (n i : Nat) :
    (expandWords k (n + 1)).getD (i + 1) Quad.zero = (expandWords k n).getD i Quad.zero := by
  simp [expandWords]

theorem expandWords_getD_add (k : Block) (n m i : Nat) :
    (expandWords k (n + m)).getD (i + m) Quad.zero = (expandWords k n).getD i Quad.zero := by
  induction m with
  | zero => rfl
  | succ m ih => rw [← Nat.add_assoc, ← Nat.add_assoc, expandWords_getD_succ, ih]

/-- Word `i` of the expansion. -/
def scheduleWord (k : Block) (i : Nat) : Quad := (expandWords k i).getD 3 Quad.zero

/-- The words of KeyExpansion. -/
theorem keyExpansion_getElem (k : Block) (i : Nat) (h : i < 44) : (keyExpansion k)[i] = scheduleWord k i := by
  simp only [keyExpansion, Vector.getElem_ofFn, scheduleWord]
  by_cases h40 : i ≤ 40
  · have := expandWords_getD_add k i (40 - i) 3
    rw [show i + (40 - i) = 40 by omega, show 3 + (40 - i) = 43 - i by omega] at this
    exact this
  · have h' : i = 41 ∨ i = 42 ∨ i = 43 := by omega
    rcases h' with rfl | rfl | rfl
    · exact (expandWords_getD_add k 40 1 2).symm
    · exact (expandWords_getD_add k 40 2 1).symm
    · exact (expandWords_getD_add k 40 3 0).symm

/-- The recurrence on scheduled words (R79). -/
theorem scheduleWord_add_four (k : Block) (i : Nat) :
    scheduleWord k (i + 4) = (scheduleWord k i).xor (scheduleTemp (i + 4) (scheduleWord k (i + 3))) := by
  have h0 : scheduleWord k (i + 4) = (expandWords k (i + 1)).getD 0 Quad.zero :=
    expandWords_getD_add k (i + 1) 3 0
  have h1 : scheduleWord k (i + 3) = (expandWords k i).getD 0 Quad.zero := expandWords_getD_add k i 3 0
  rw [h0, h1]
  rfl

end Sys2Proof
end

