-- ==== Sys2Proof/Laws/Ofb.lean ====
section
/-! SUPPORT. Laws/Ofb.lean: one lemma for each function of Machine/Ofb.lean, by length and by byte (43_ofb.md R95). -/

namespace Sys2Proof

theorem xorKeystream_length (p : List Byte) (o : Block) : (xorKeystream p o).length = min p.length 16 := by
  simp [xorKeystream]

/-- Byte `m` of data XORed with a keystream block (R95 steps 2 and 3). -/
theorem xorKeystream_getD (p : List Byte) (o : Block) (m : Nat) (h : m < p.length) (h' : m < 16) :
    (xorKeystream p o).getD m 0 = p.getD m 0 ^^^ o.byte ⟨m, h'⟩ := by
  rw [← Block.getD_toBytes o ⟨m, h'⟩]
  unfold xorKeystream
  rw [List.getD_eq_getElem _ _ (by simp; omega), List.getElem_zipWith, List.getD_eq_getElem _ _ h,
    List.getD_eq_getElem _ _ (by simpa using h')]

/-- One more application at the start is one more at the end (10_state.md R40). -/
theorem chainAfter_apply (e : Block → Block) (j : Nat) (x : Block) :
    chainAfter e j (e x) = chainAfter e (j + 1) x := by
  induction j with
  | zero => rfl
  | succ j ih =>
    simp only [chainAfter] at *
    rw [ih]

/-- The chaining register after the full blocks (R95 step 2, 10_state.md R40). -/
theorem ofbFullBlocks_chain (e : Block → Block) (n : Nat) (x : Block) (p : List Byte) :
    (ofbFullBlocks e n x p).2 = chainAfter e n x := by
  induction n generalizing x p with
  | zero => rfl
  | succ n ih => simp [ofbFullBlocks, ih, chainAfter_apply]

/-- The full blocks keep the length (R95 step 2, R101). -/
theorem ofbFullBlocks_length (e : Block → Block) (n : Nat) (x : Block) (p : List Byte) (h : 16 * n ≤ p.length) :
    (ofbFullBlocks e n x p).1.length = 16 * n := by
  induction n generalizing x p with
  | zero => rfl
  | succ n ih =>
    simp [ofbFullBlocks, xorKeystream_length, ih (e x) (p.drop 16) (by simp; omega)]
    omega

end Sys2Proof
end

