-- ==== Sys2Proof/Laws/PerInstr.lean ====
section
/-! SUPPORT. Laws/PerInstr.lean: statements made per instruction, one lemma per constructor (LAWS.json). -/

/-- The word of a command has its reserved bits clear and matches its row of the opcode map (30_encoding.md R57,
R58). -/
def Sys2Proof.Laws.RowWord.Statement (i : Sys2Proof.Instr) : Prop :=
  Sys2Proof.encode i &&& 0xFFFFF0F0 = 0 ∧ Sys2Proof.encode i &&& i.rowMask = i.rowMatch

theorem Sys2Proof.Laws.RowWord.nop : Sys2Proof.Laws.RowWord.Statement .nop := by
  unfold Sys2Proof.Laws.RowWord.Statement
  decide

theorem Sys2Proof.Laws.RowWord.keyexp : Sys2Proof.Laws.RowWord.Statement .keyexp := by
  unfold Sys2Proof.Laws.RowWord.Statement
  decide

theorem Sys2Proof.Laws.RowWord.enc : Sys2Proof.Laws.RowWord.Statement .enc := by
  unfold Sys2Proof.Laws.RowWord.Statement
  decide

theorem Sys2Proof.Laws.RowWord.ofbInit : Sys2Proof.Laws.RowWord.Statement .ofbInit := by
  unfold Sys2Proof.Laws.RowWord.Statement
  decide

theorem Sys2Proof.Laws.RowWord.ofbBlock : Sys2Proof.Laws.RowWord.Statement .ofbBlock := by
  unfold Sys2Proof.Laws.RowWord.Statement
  decide

theorem Sys2Proof.Laws.RowWord.ofbFinal (len : BitVec 4) : Sys2Proof.Laws.RowWord.Statement (.ofbFinal len) := by
  unfold Sys2Proof.Laws.RowWord.Statement
  revert len
  decide

theorem Sys2Proof.Laws.RowWord.clear : Sys2Proof.Laws.RowWord.Statement .clear := by
  unfold Sys2Proof.Laws.RowWord.Statement
  decide
end

