-- ==== Sys2Proof/Laws/Step.lean ====
section
/-! SUPPORT. Laws/Step.lean: what one step can do, said once: the block after it is the block after its act, and what the
environment of the next state is. -/

namespace Sys2Proof.Machine

/-- The block after an act; the environment is left as it was. -/
def blockAfter (a : Act) (s : State) : State :=
  match a with
  | .complete i => completed i s
  | .access a => (hostAccess a s).2
  | .assertReset => resetBlock s
  | .releaseReset | .hostOnly | .idle => s

/-- The level of `rst` after an act. -/
def rstAfter (a : Act) (level : Bool) : Bool :=
  match a with
  | .assertReset => true
  | .releaseReset => false
  | .complete _ | .access _ | .hostOnly | .idle => level

/-- What a step that is an act `a` of state `s` can leave as its next state. -/
structure StepResult (a : Act) (s t : State) : Prop where
  block    : t = setEnv (blockAfter a s) t.env
  rst      : t.env.rst = rstAfter a s.env.rst
  script   : t.env.script = s.env.script
  released : (∃ acc, a = .access acc) ∨ (∃ i, a = .complete i) → s.env.rst = false
  pending  : ∀ i, a = .complete i → s.pending = some i

@[simp] theorem blockAfter_env (a : Act) (s : State) : (blockAfter a s).env = s.env := by
  cases a <;> simp [blockAfter]

/-- A step that is its act's block and keeps the environment. -/
theorem StepResult.of_blockAfter {a : Act} {s : State} (hr : rstAfter a s.env.rst = s.env.rst)
    (released : (∃ acc, a = .access acc) ∨ (∃ i, a = .complete i) → s.env.rst = false)
    (pending : ∀ i, a = .complete i → s.pending = some i) : StepResult a s (blockAfter a s) :=
  ⟨(setEnv_self _).symm, by rw [blockAfter_env, hr], by rw [blockAfter_env], released, pending⟩

/-- The engine's step (44_commands.md R107). -/
theorem engineStep_result {s t : State} (h : engineStep s = .next t) : StepResult (engineAct s) s t := by
  unfold engineStep at h
  unfold engineAct
  cases hr : s.env.rst with
  | true =>
    rw [hr] at h
    cases h
    exact .of_blockAfter rfl (by simp) (by simp)
  | false =>
    rw [hr] at h
    cases hp : s.pending with
    | none =>
      rw [hp] at h
      cases h
      exact .of_blockAfter rfl (by simp) (by simp)
    | some i =>
      rw [hp] at h
      simp only [Bool.false_eq_true, if_false, exec_eq] at h
      cases h
      exact .of_blockAfter rfl (fun _ => hr) (by simpa using hp)

/-- An access at the port that is answered. -/
theorem access_result {a : Access} {r : Response} {s t : State} (h : portAccess a s = .next (r, t)) :
    StepResult (.access a) s t ∧ r = (hostAccess a s).1 := by
  obtain ⟨hr, rfl, rfl⟩ := portAccess_eq_next s h
  refine ⟨⟨rfl, ?_, ?_, fun _ => hr, by simp⟩, rfl⟩
  · simp [rstAfter]
  · simp

theorem busStep_result {a : Access} {s t : State} (h : busStep a s = .next t) : StepResult (.access a) s t := by
  unfold busStep at h
  split at h
  · rename_i r u hp
    cases h
    exact (access_result hp).1
  · cases h
  · cases h

/-- A state that differs only in its host agent. -/
theorem setHost_result (h : HostAgent) {a : Act} {s t : State} (H : StepResult a s t) :
    StepResult a s (setHost h t) := by
  refine ⟨?_, H.rst, H.script, H.released, H.pending⟩
  conv_lhs => rw [H.block]
  rfl

theorem lineAccess_result {a : Access} {f : Word → HostAgent → HostAgent} {s t : State}
    (h : lineAccess a f s = .next t) : StepResult (.access a) s t := by
  unfold lineAccess at h
  split at h
  · rename_i r u hp
    split at h
    · cases h
      exact setHost_result _ (access_result hp).1
    · cases h
  · cases h
  · cases h

/-- A line without a bus access leaves the block alone. -/
theorem hostOnly_result (h : HostAgent) (s : State) : StepResult .hostOnly s (setHost h s) :=
  ⟨rfl, rfl, rfl, by simp, by simp⟩

theorem branch_result {b : Bool} {name : Nat} {s t : State} (h : branch b name s = .next t) :
    StepResult .hostOnly s t := by
  unfold branch at h
  split at h
  · split at h
    · cases h
      exact hostOnly_result _ _
    · cases h
  · cases h
    exact hostOnly_result _ _

/-- The host program's step (30_encoding.md R65). -/
theorem runProgram_result {s t : State} (h : runProgram s = .next t) : StepResult (programAct s) s t := by
  unfold runProgram at h
  unfold programAct
  cases hl : s.env.host.program[s.env.host.pc]? with
  | none =>
    rw [hl] at h
    cases h
    exact ⟨rfl, rfl, rfl, by simp, by simp⟩
  | some l =>
    rw [hl] at h
    change runLine l s = .next t at h
    cases l with
    | wr off v =>
      simp only [runLine] at h
      exact lineAccess_result h
    | rd off t =>
      simp only [runLine] at h
      exact lineAccess_result h
    | label name =>
      cases h
      exact hostOnly_result _ _
    | bnz t mask name => exact branch_result h
    | bz t mask name => exact branch_result h
    | chk t v =>
      simp only [runLine] at h
      split at h
      · cases h
        exact hostOnly_result _ _
      · cases h

/-- One event. -/
theorem runEvent_result {e : Event} {s t : State} (h : runEvent e s = .next t) : StepResult (eventAct e s) s t := by
  cases e with
  | engine => exact engineStep_result h
  | program => exact runProgram_result h
  | bus a => exact busStep_result h
  | assertReset =>
    cases h
    exact ⟨rfl, rfl, rfl, by simp [eventAct], by simp [eventAct]⟩
  | releaseReset =>
    cases h
    exact ⟨rfl, rfl, rfl, by simp [eventAct], by simp [eventAct]⟩

/-- The act of a state does not depend on the events after its first. -/
theorem eventAct_setScript (e : Event) (es : List Event) (s : State) :
    eventAct e (setScript es s) = eventAct e s := by
  cases e <;> rfl

theorem blockAfter_setScript (a : Act) (es : List Event) (s : State) :
    blockAfter a (setScript es s) = setScript es (blockAfter a s) := by
  cases a with
  | complete i =>
    simp only [blockAfter, setScript, completed_setEnv]
    simp
  | access acc =>
    simp only [blockAfter, setScript, hostAccess_setEnv]
    simp
  | _ => rfl

/-- INVERSION: a step that answers a next state leaves the block as its act leaves it, moves `rst` only by a reset act,
completes only a pending command, and accesses the block only while `rst` is released. -/
theorem step_cases {s t : State} (h : step s = .next t) :
    t = setEnv (blockAfter (act s) s) t.env ∧ t.env.rst = rstAfter (act s) s.env.rst ∧
      ((∃ acc, act s = .access acc) ∨ (∃ i, act s = .complete i) → s.env.rst = false) ∧
      (∀ i, act s = .complete i → s.pending = some i) := by
  unfold step nextStep at h
  cases hs : s.env.script with
  | cons e rest =>
    rw [hs] at h
    have H := runEvent_result h
    have ha : act s = eventAct e s := by simp [act, hs]
    rw [eventAct_setScript] at H
    rw [ha]
    refine ⟨?_, H.rst, H.released, H.pending⟩
    have hb := H.block
    rwa [blockAfter_setScript] at hb
  | nil =>
    rw [hs] at h
    change defaultStep s = .next t at h
    unfold defaultStep at h
    cases hr : s.env.rst with
    | true =>
      rw [hr] at h
      cases h
      have ha : act s = .idle := by simp [act, hs, hr]
      rw [ha]
      exact ⟨rfl, hr, by simp, by simp⟩
    | false =>
      rw [hr] at h
      cases hb : s.busy with
      | true =>
        rw [hb] at h
        have H := engineStep_result h
        have ha : act s = engineAct s := by simp [act, hs, hr, show s.pending.isSome = true from hb]
        rw [ha]
        exact ⟨H.block, hr ▸ H.rst, fun _ => rfl, H.pending⟩
      | false =>
        rw [hb] at h
        have H := runProgram_result h
        have ha : act s = programAct s := by simp [act, hs, hr, show s.pending.isSome = false from hb]
        rw [ha]
        exact ⟨H.block, hr ▸ H.rst, fun _ => rfl, H.pending⟩

/-- A step that writes a register leaves the block as that write does. -/
theorem blockAfter_of_writes {s : State} {r : Reg} {v : Word} (h : Writes s r v) :
    blockAfter (act s) s = writeReg r v s := by
  unfold Writes Act.write? at h
  split at h
  · rename_i v' off size hact
    split at h
    · rename_i hwf
      cases h
      rw [hact]
      simp only [blockAfter, hostAccess, if_pos hwf]
      rfl
    · cases h
  · cases h
  all_goals cases h

/-- An access writes a register or leaves the block alone. -/
theorem access_writes_or_keeps {s : State} {a : Access} (h : act s = .access a) :
    (∃ r v, Writes s r v) ∨ blockAfter (act s) s = s := by
  obtain ⟨kind, off, size⟩ := a
  cases kind with
  | read =>
    right
    rw [h]
    simp only [blockAfter, hostAccess]
    split <;> rfl
  | write v =>
    by_cases hwf : (⟨.write v, off, size⟩ : Access).wellFormed = true
    · exact .inl ⟨regAt off, v, by simp [Writes, h, Act.write?, hwf]⟩
    · right
      rw [h]
      simp only [blockAfter, hostAccess, if_neg hwf]

/-- What a step's act can be, and what it leaves of the block: a register write, a completion, reset, or nothing. -/
theorem blockAfter_cases (s : State) :
    (∃ r v, Writes s r v ∧ blockAfter (act s) s = writeReg r v s) ∨
    (∃ i, act s = .complete i ∧ blockAfter (act s) s = completed i s) ∨
    (act s = .assertReset ∧ blockAfter (act s) s = resetBlock s) ∨
    (act s ≠ .assertReset ∧ (∀ i, act s ≠ .complete i) ∧ (∀ r v, ¬ Writes s r v) ∧
      blockAfter (act s) s = s) := by
  cases h : act s with
  | complete i => exact .inr (.inl ⟨i, rfl, rfl⟩)
  | assertReset => exact .inr (.inr (.inl ⟨rfl, rfl⟩))
  | access a =>
    rcases access_writes_or_keeps h with ⟨r, v, hw⟩ | hk
    · exact .inl ⟨r, v, hw, by rw [← h, blockAfter_of_writes hw]⟩
    · by_cases hw : ∃ r v, Writes s r v
      · obtain ⟨r, v, hw⟩ := hw
        exact .inl ⟨r, v, hw, by rw [← h, blockAfter_of_writes hw]⟩
      · exact .inr (.inr (.inr ⟨by simp, by simp, fun r v hv => hw ⟨r, v, hv⟩, by rw [← h, hk]⟩))
  | releaseReset => exact .inr (.inr (.inr ⟨by simp, by simp, by simp [Writes, h, Act.write?], rfl⟩))
  | hostOnly => exact .inr (.inr (.inr ⟨by simp, by simp, by simp [Writes, h, Act.write?], rfl⟩))
  | idle => exact .inr (.inr (.inr ⟨by simp, by simp, by simp [Writes, h, Act.write?], rfl⟩))

/-- A step writes at most one register with one value, and is then neither a completion nor reset. -/
theorem Writes.unique {s : State} {r r' : Reg} {v v' : Word} (h : Writes s r v) (h' : Writes s r' v') :
    r = r' ∧ v = v' := by
  unfold Writes at h h'
  rw [h] at h'
  simpa using h'

theorem Writes.not_complete {s : State} {r : Reg} {v : Word} (h : Writes s r v) (i : Instr) :
    act s ≠ .complete i := by
  intro ha
  simp [Writes, ha, Act.write?] at h

theorem Writes.not_reset {s : State} {r : Reg} {v : Word} (h : Writes s r v) : act s ≠ .assertReset := by
  intro ha
  simp [Writes, ha, Act.write?] at h

end Sys2Proof.Machine
end

