-- ==== Sys2Proof/Laws/Run.lean ====
section
/-! SUPPORT. Laws/Run.lean: what one event answers, that it does not read the events after it, and a run over a list of
events one event at a time. -/

namespace Sys2Proof.Machine

/-- An outcome with the events still to come replaced. -/
def mapScript (es : List Event) : Host.Outcome State Fault Refusal → Host.Outcome State Fault Refusal
  | .next t => .next (setScript es t)
  | .fault f => .fault f
  | .refused r => .refused r

variable (s : State)

theorem hostAccess_setScript (a : Access) (es : List Event) :
    hostAccess a (setScript es s) = ((hostAccess a s).1, setScript es (hostAccess a s).2) := by
  have h := hostAccess_setEnv s a { s.env with script := es }
  rw [setScript_setEnv s es]
  change hostAccess a { s with env := _ } = _
  rw [h, setScript_setEnv _ es, hostAccess_env]
  rfl

theorem completed_setScript (i : Instr) (es : List Event) :
    completed i (setScript es s) = setScript es (completed i s) := by
  cases i <;> rfl

/-- An access at the port while `rst` is released (20_memory.md R43). -/
theorem portAccess_released (a : Access) (h : s.env.rst = false) :
    portAccess a s = .next ((hostAccess a s).1, setResponse (hostAccess a s).1 (hostAccess a s).2) := by
  simp [portAccess, h]

theorem busStep_released (a : Access) (h : s.env.rst = false) :
    busStep a s = .next (setResponse (hostAccess a s).1 (hostAccess a s).2) := by
  simp [busStep, portAccess, h]

/-- The engine's step on a pending command (44_commands.md R107). -/
theorem engineStep_pending {i : Instr} (h : s.env.rst = false) (hp : s.pending = some i) :
    engineStep s = .next (completed i s) := by
  simp [engineStep, h, hp, exec_eq]

theorem portAccess_setScript (a : Access) (es : List Event) : portAccess a (setScript es s) =
    match portAccess a s with
    | .next (r, t) => .next (r, setScript es t)
    | .fault f => .fault f
    | .refused f => .refused f := by
  by_cases h : s.env.rst = false
  · rw [portAccess_released s a h, portAccess_released (setScript es s) a h, hostAccess_setScript]
    rfl
  · have h' : s.env.rst = true := by simpa using h
    simp [portAccess, h']

theorem lineAccess_setScript (a : Access) (f : Word → HostAgent → HostAgent) (es : List Event) :
    lineAccess a f (setScript es s) = mapScript es (lineAccess a f s) := by
  unfold lineAccess
  rw [portAccess_setScript]
  cases portAccess a s with
  | next x =>
    obtain ⟨⟨resp, rdata⟩, t⟩ := x
    cases resp <;> rfl
  | fault f => rfl
  | refused f => rfl

theorem branch_setScript (b : Bool) (name : Nat) (es : List Event) :
    branch b name (setScript es s) = mapScript es (branch b name s) := by
  unfold branch
  cases b
  · rfl
  · change (match labelIndex s.env.host.program name with | some n => _ | none => _) = _
    cases labelIndex s.env.host.program name <;> rfl

theorem runLine_setScript (l : HostLine) (es : List Event) :
    runLine l (setScript es s) = mapScript es (runLine l s) := by
  cases l with
  | wr off v => simp only [runLine, lineAccess_setScript]
  | rd off t => simp only [runLine, lineAccess_setScript]
  | label name => rfl
  | bnz t mask name =>
    simp only [runLine]
    exact branch_setScript s _ _ _
  | bz t mask name =>
    simp only [runLine]
    exact branch_setScript s _ _ _
  | chk t v =>
    by_cases h : s.env.host.temps[t] = v
    · simp only [runLine, setScript_env, h, if_true, mapScript]
      rfl
    · simp only [runLine, setScript_env, h, if_false, mapScript]

/-- An event does not read the events after it. -/
theorem runEvent_setScript (e : Event) (es : List Event) :
    runEvent e (setScript es s) = mapScript es (runEvent e s) := by
  cases e with
  | engine =>
    by_cases hr : s.env.rst = true
    · simp [runEvent, engineStep, hr, mapScript]
    · cases hp : s.pending with
      | none => simp [runEvent, engineStep, hp, mapScript]
      | some i => simp [runEvent, engineStep, hr, hp, exec_eq, mapScript, completed_setScript]
  | program =>
    simp only [runEvent, runProgram, setScript_env]
    cases s.env.host.program[s.env.host.pc]? with
    | none => rfl
    | some l => exact runLine_setScript s l es
  | bus a =>
    simp only [runEvent, busStep, portAccess_setScript]
    cases portAccess a s <;> rfl
  | assertReset => rfl
  | releaseReset => rfl

theorem step_script (e : Event) (es : List Event) : step (setScript (e :: es) s) = mapScript es (runEvent e s) := by
  change runEvent e (setScript es (setScript (e :: es) s)) = _
  rw [setScript_setScript, runEvent_setScript]

theorem run_succ_next (M : Host.Core) {s t : M.State} (h : M.step s = .next t) (n : Nat) :
    M.run (n + 1) s = M.run n t := by
  rw [Host.Core.run, h]

theorem run_succ_fault (M : Host.Core) {s : M.State} {f : M.Fault} (h : M.step s = .fault f) (n : Nat) :
    M.run (n + 1) s = .fault f := by
  rw [Host.Core.run, h]

theorem run_succ_refused (M : Host.Core) {s : M.State} {r : M.Refusal} (h : M.step s = .refused r) (n : Nat) :
    M.run (n + 1) s = .refused r := by
  rw [Host.Core.run, h]

/-- A run of one more step. -/
theorem core_run_succ (n : Nat) (s : State) : Sys2Proof.core.run (n + 1) s =
    match step s with
    | .next t => Sys2Proof.core.run n t
    | .fault f => .fault f
    | .refused r => .refused r := by
  cases h : step s with
  | next t => exact run_succ_next Sys2Proof.core h n
  | fault f => exact run_succ_fault Sys2Proof.core h n
  | refused r => exact run_succ_refused Sys2Proof.core h n

@[simp] theorem runScript_nil : runScript [] s = .next (setScript [] s) := rfl

@[simp] theorem runScript_setScript (es es' : List Event) : runScript es (setScript es' s) = runScript es s := rfl

/-- A run over a list of events, one event at a time. -/
theorem runScript_cons (e : Event) (es : List Event) :
    runScript (e :: es) s =
      match runEvent e s with
      | .next t => runScript es t
      | .fault f => .fault f
      | .refused r => .refused r := by
  have h : runScript (e :: es) s = _ := core_run_succ es.length (setScript (e :: es) s)
  rw [h, step_script]
  cases runEvent e s <;> rfl

theorem runScript_append (es es' : List Event) :
    runScript (es ++ es') s =
      match runScript es s with
      | .next t => runScript es' t
      | .fault f => .fault f
      | .refused r => .refused r := by
  induction es generalizing s with
  | nil => simp
  | cons e es ih =>
    rw [List.cons_append, runScript_cons, runScript_cons]
    cases runEvent e s with
    | next t => exact ih t
    | fault f => rfl
    | refused r => rfl

/-- A 32-bit write at the port, in a run (20_memory.md R43, R50). -/
theorem runScript_write {off : BitVec 7} (h : s.env.rst = false) (ha : off.toNat % 4 = 0) (v : Word)
    (es : List Event) :
    runScript (busWrite32 off v :: es) s = runScript es (setResponse ⟨.okay, 0x00000000⟩ (busWrite off v s)) := by
  rw [runScript_cons]
  simp only [busWrite32, runEvent, busStep_released s _ h, hostAccess_write s ha]

/-- The engine's step in a run (44_commands.md R107). -/
theorem runScript_engine {i : Instr} (h : s.env.rst = false) (hp : s.pending = some i) (es : List Event) :
    runScript (.engine :: es) s = runScript es (completed i s) := by
  rw [runScript_cons]
  simp only [runEvent, engineStep_pending s h hp]

/-- The events of a clock cycle's access do what the access does (20_memory.md R43). -/
theorem runScript_accessEvents (a : Option Access) (t : TimedState) (es : List Event) :
    runScript (accessEvents a ++ es) t.state =
      match timedAccess a t with
      | .next u => runScript es u.state
      | .fault f => .fault f
      | .refused r => .refused r := by
  cases a with
  | none => rfl
  | some a =>
    simp only [accessEvents, timedAccess, List.cons_append, List.nil_append, runScript_cons, runEvent]
    cases busStep a t.state <;> rfl

/-- The engine's event of a clock cycle does what the engine does in it (70_reset_and_hazards.md R140). -/
theorem runScript_dueEvents (lat : BitVec 4 → Nat) (t : TimedState) (es : List Event) :
    runScript (dueEvents lat t ++ es) t.state =
      match timedEngine lat t with
      | .next u => runScript es u.state
      | .fault f => .fault f
      | .refused r => .refused r := by
  unfold dueEvents timedEngine
  cases hp : t.state.pending with
  | none => rfl
  | some i =>
    simp only
    split
    · rfl
    · simp only [List.cons_append, List.nil_append, runScript_cons, runEvent]
      cases engineStep t.state <;> rfl

/-- A write to a 16-byte register while nothing is pending (44_commands.md R116 to R118, 20_memory.md R44). -/
theorem busWrite_offset (x : BlockReg) (k : Fin 4) (v : Word) (h : s.pending = none) :
    busWrite (BlockReg.offset x k) v s =
      match x with
      | .key => setKey k v s
      | .iv => setIv k v s
      | .din => setDin k v s
      | .dout => s := by
  unfold busWrite
  rw [regAt_offset]
  cases x <;> simp [writeReg, writeKey, writeIv, writeDin, operandWrite_eq, h]

/-- The block the host reads by RDBLK (30_encoding.md R66, 20_memory.md R42): KEY reads as zero. -/
theorem readBlock_eq (x : BlockReg) : readBlock x s =
    match x with
    | .key => Block.ofRegs 0 0 0 0
    | .iv => s.iv
    | .din => s.din
    | .dout => s.dout := by
  unfold readBlock busRead
  simp only [regAt_offset]
  cases x <;> simp [readReg]

end Sys2Proof.Machine
end

