-- ==== Sys2Proof/Tests/Slice0.lean ====
section
/-! SUPPORT. Tests/Slice0.lean: ill-formed terms the checks refuse; words written out from the encoding; the vectors of
95_test_vectors.md, one step each; and a witness for every hypothesis of the obligations. Expected values are the
spec's own tables. -/

namespace Sys2Proof.Tests

open Sys2Proof Sys2Proof.Machine

/-! ### Well-formedness: one ill-formed term for each check -/

/-- `OFB_FINAL #0` is spellable, decodes and is not legal (30_encoding.md R59). -/
theorem test_illFormed_len : (Instr.ofbFinal 0).wellFormed = false ∧ (Instr.ofbFinal 15).wellFormed = true := by
  decide

/-- A narrow access and a misaligned one (20_memory.md R43). -/
theorem test_illFormed_access :
    (⟨.write 0x00000000, 0x00, .one⟩ : Access).wellFormed = false ∧
    (⟨.read, 0x04, .two⟩ : Access).wellFormed = false ∧
    (⟨.read, 0x06, .four⟩ : Access).wellFormed = false ∧
    (⟨.read, 0x7C, .four⟩ : Access).wellFormed = true := by
  decide

/-- A branch to a label no line defines, and a label defined twice (30_encoding.md R65). -/
theorem test_illFormed_program :
    HostProgram.wellFormed [.bnz 7 0x1 0] = false ∧
    HostProgram.wellFormed [.label 0, .label 0] = false ∧
    HostProgram.wellFormed (expandPseudo (.run .keyexp 3)) = true := by
  decide

/-- WRBLK of DOUT and RDBLK of KEY (30_encoding.md R66). -/
theorem test_illFormed_pseudo :
    (PseudoLine.wrblk .dout Block.zero).wellFormed = false ∧ (PseudoLine.rdblk .key 0 1 2 3).wellFormed = false ∧
    (PseudoLine.rdblk .dout 0 1 2 3).wellFormed = true := by
  decide

/-! ### Decoding: every constructor's word, bit by bit (30_encoding.md R57, R58, R63) -/

theorem test_decode_nop : decode 0b00000000000000000000000000000000 = .ok .nop := by
  decide

theorem test_decode_keyexp : decode 0b00000000000000000000000000000001 = .ok .keyexp := by
  decide

theorem test_decode_enc : decode 0b00000000000000000000000000000010 = .ok .enc := by
  decide

theorem test_decode_ofbInit : decode 0b00000000000000000000000000000011 = .ok .ofbInit := by
  decide

theorem test_decode_ofbBlock : decode 0b00000000000000000000000000000100 = .ok .ofbBlock := by
  decide

/-- LEN is bits 11:8. -/
theorem test_decode_ofbFinal :
    decode 0b00000000000000000000000100000101 = .ok (.ofbFinal 1) ∧
    decode 0b00000000000000000000100000000101 = .ok (.ofbFinal 8) ∧
    decode 0b00000000000000000000111100000101 = .ok (.ofbFinal 15) := by
  decide

theorem test_decode_clear : decode 0b00000000000000000000000000000110 = .ok .clear := by
  decide

/-- The three kinds of illegal word (30_encoding.md R61). -/
theorem test_decode_illegal :
    decode 0b00000000000000000000000000000111 = .error .reservedOpcode ∧
    decode 0b00000000000000000000000000010000 = .error .reservedBits ∧
    decode 0b00000000000000000001000000000101 = .error .reservedBits ∧
    decode 0b00000000000000000000000100000010 = .error .lengthNotAllowed := by
  decide

/-- The word of the table row and the word of a written command (30_encoding.md R64; 95_test_vectors.md 2.7 C6). -/
theorem test_tableWord : decodeTableWord 32 0x105 = some (.ofbFinal 1) ∧ decodeTableWord 8 0x05 = some (.ofbFinal 0) ∧
    parseCommand ['o', 'f', 'b', '_', 'f', 'i', 'n', 'a', 'l', ' ', '#', '1'] = some (.ofbFinal 1) := by
  decide

/-! ### The datapath (95_test_vectors.md 2.1 to 2.6) -/

/-- The key of FIPS-197 Appendix B and of SP 800-38A F.4.1. -/
def keyB : Block := Block.ofRegs 0x2b7e1516 0x28aed2a6 0xabf71588 0x09cf4f3c

/-- The key of FIPS-197 Appendix C.1, also the IV of SP 800-38A F.4.1. -/
def bytes0to15 : Block := Block.ofRegs 0x00010203 0x04050607 0x08090a0b 0x0c0d0e0f

/-- The first plaintext block of SP 800-38A F.4.1. -/
def plain1 : Block := Block.ofRegs 0x6bc1bee2 0x2e409f96 0xe93d7e11 0x7393172a

/-- 95_test_vectors.md 2.1. -/
theorem test_field : xtime 0x57 = 0xae ∧ xtime 0x80 = 0x1b ∧ xtime 0xff = 0xe5 ∧ gmul 0x57 0x13 = 0xfe ∧
    gmul 0x57 0x83 = 0xc1 ∧ m3 0xae = 0xe9 := by
  decide

/-- 95_test_vectors.md 2.1. -/
theorem test_tables : sbox 0x00 = 0x63 ∧ sbox 0x01 = 0x7c ∧ sbox 0x10 = 0xca ∧ sbox 0x53 = 0xed ∧ sbox 0x9a = 0xb8 ∧
    sbox 0xc9 = 0xdd ∧ sbox 0xff = 0x16 ∧ rcon 1 = 0x01 ∧ rcon 9 = 0x1b ∧ rcon 10 = 0x36 := by
  decide +kernel

/-- 95_test_vectors.md 2.4. -/
theorem test_mixColumn : mixColumn ⟨0xdb, 0x13, 0x53, 0x45⟩ = ⟨0x8e, 0x4d, 0xa1, 0xbc⟩ ∧
    mixColumn ⟨0x80, 0x00, 0x00, 0x00⟩ = ⟨0x1b, 0x80, 0x80, 0x9b⟩ := by
  decide

/-- 95_test_vectors.md 2.4. -/
theorem test_transforms :
    subBytes bytes0to15 = Block.ofRegs 0x637c777b 0xf26b6fc5 0x3001672b 0xfed7ab76 ∧
    shiftRows bytes0to15 = Block.ofRegs 0x00050a0f 0x04090e03 0x080d0207 0x0c01060b ∧
    mixColumns bytes0to15 = Block.ofRegs 0x02070005 0x06030401 0x0a0f080d 0x0e0b0c09 ∧
    addRoundKey (keyExpansion keyB) (Block.ofRegs 0x3243f6a8 0x885a308d 0x313198a2 0xe0370734) 0 =
      Block.ofRegs 0x193de3be 0xa0f4e22b 0x9ac68d2a 0xe9f84808 := by
  decide +kernel

/-- 95_test_vectors.md 2.5.1: FIPS-197 Appendix B. -/
theorem test_aes : aes keyB (Block.ofRegs 0x3243f6a8 0x885a308d 0x313198a2 0xe0370734) =
    Block.ofRegs 0x3925841d 0x02dc09fb 0xdc118597 0x196a0b32 := by
  decide +kernel

/-- 95_test_vectors.md 1.4: one byte of OFB. -/
theorem test_ofbTransform_one : ofbTransform keyB bytes0to15 [0x6b] = [0x3b] := by
  decide +kernel

/-! ### States for the step tests -/

/-- `keyB` expanded: STATUS = 0x00000006. -/
def expanded : State :=
  { State.reset with key := keyB, rk := keyExpansion keyB, keyValid := true, done := true, cmdLast := 0x00000001 }

/-- A message opened under `keyB`, the first plaintext block in DIN: STATUS = 0x0000000E. -/
def opened : State :=
  { expanded with iv := bytes0to15, din := plain1, chain := bytes0to15, chainValid := true, cmdLast := 0x00000003 }

/-- Command `i` pending as acceptance leaves it, and the engine due. -/
def pendingOf (i : Instr) (s : State) : State :=
  setScript [.engine] { s with pending := some i, cmdLast := encode i, done := false }

/-- Whether one step answers a next state that meets `p`. -/
def stepMeets (p : State → Bool) (s : State) : Bool :=
  match step s with
  | .next t => p t
  | .fault _ => false
  | .refused _ => false

/-- Whether one write reaches a state that meets `p`. -/
def writeMeets (off : BitVec 7) (v : Word) (p : State → Bool) (s : State) : Bool :=
  stepMeets p (setScript [busWrite32 off v] s)

/-! ### Commands, one step each (95_test_vectors.md 2.7, rows C1 to C7) -/

theorem test_nop : stepMeets (fun t => statusWord t == 0x00000002 && t.cmdLast == 0x00000000)
    (pendingOf .nop State.reset) = true := by
  decide

theorem test_keyexp : stepMeets (fun t => statusWord t == 0x00000006 &&
      roundKey t.rk 0 == bytes0to15 &&
      roundKey t.rk 1 == Block.ofRegs 0xd6aa74fd 0xd2af72fa 0xdaa678f1 0xd6ab76fe &&
      roundKey t.rk 10 == Block.ofRegs 0x13111d7f 0xe3944a17 0xf307a78b 0x4d2b30c5)
    (pendingOf .keyexp { State.reset with key := bytes0to15 }) = true := by
  decide +kernel

theorem test_enc : stepMeets (fun t => statusWord t == 0x00000006 &&
      t.dout == Block.ofRegs 0x69c4e0d8 0x6a7b0430 0xd8cdb780 0x70b4c55a)
    (pendingOf .enc
      { State.reset with rk := keyExpansion bytes0to15, keyValid := true,
                         din := Block.ofRegs 0x00112233 0x44556677 0x8899aabb 0xccddeeff }) = true := by
  decide +kernel

theorem test_ofbInit : stepMeets (fun t => statusWord t == 0x0000000E && t.chain == bytes0to15)
    (pendingOf .ofbInit { expanded with iv := bytes0to15 }) = true := by
  decide +kernel

theorem test_ofbBlock : stepMeets (fun t => statusWord t == 0x0000000E &&
      t.dout == Block.ofRegs 0x3b3fd92e 0xb72dad20 0x333449f8 0xe83cfb4a &&
      t.chain == Block.ofRegs 0x50fe67cc 0x996d32b6 0xda0937e9 0x9bafec60 && t.ks == t.chain)
    (pendingOf .ofbBlock opened) = true := by
  decide +kernel

/-- Row C6, from a CHAIN of 95_test_vectors.md 2.6. -/
theorem test_ofbFinal : stepMeets (fun t => statusWord t == 0x00000006 &&
      t.dout == Block.ofRegs 0x77000000 0x00000000 0x00000000 0x00000000 &&
      t.chain == Block.ofRegs 0x50fe67cc 0x996d32b6 0xda0937e9 0x9bafec60 &&
      t.ks == Block.ofRegs 0xd9a4dada 0x0892239f 0x6b8b3d76 0x80e15674)
    (pendingOf (.ofbFinal 1)
      { opened with chain := Block.ofRegs 0x50fe67cc 0x996d32b6 0xda0937e9 0x9bafec60,
                    din := Block.ofRegs 0xae2d8a57 0x1e03ac9c 0x9eb76fac 0x45af8e51 }) = true := by
  decide +kernel

/-- All but the last byte (95_test_vectors.md 2.6, r = 15). -/
theorem test_ofbFinal_fifteen : stepMeets (fun t =>
      t.dout == Block.ofRegs 0x7789508d 0x16918f03 0xf53c52da 0xc54ed800)
    (pendingOf (.ofbFinal 15)
      { opened with chain := Block.ofRegs 0x50fe67cc 0x996d32b6 0xda0937e9 0x9bafec60,
                    din := Block.ofRegs 0xae2d8a57 0x1e03ac9c 0x9eb76fac 0x45af8e51 }) = true := by
  decide +kernel

theorem test_clear : stepMeets (fun t => statusWord t == 0x00000002 && t.cmdLast == 0x00000006 &&
      t.key == Block.zero && t.iv == Block.zero && t.din == Block.zero && t.rk == RoundKeys.zero &&
      t.chain == Block.zero)
    (pendingOf .clear opened) = true := by
  decide +kernel

/-! ### Errors, interrupts and accesses (95_test_vectors.md 2.7 rows E1 to E15 and I1 to I3, 2.8) -/

theorem test_errors_from_reset :
    writeMeets 0x00 0x00000002 (fun t => statusWord t == 0x00000310 && t.cmdLast == 0x00000000) State.reset = true ∧
    writeMeets 0x00 0x00000005 (fun t => statusWord t == 0x00000510) State.reset = true ∧
    writeMeets 0x00 0x00000007 (fun t => statusWord t == 0x00000110) State.reset = true ∧
    writeMeets 0x00 0x00000102 (fun t => statusWord t == 0x00000110) State.reset = true ∧
    writeMeets 0x00 0x00000012 (fun t => statusWord t == 0x00000110) State.reset = true ∧
    writeMeets 0x00 0x80000001 (fun t => statusWord t == 0x00000110) State.reset = true := by
  decide

theorem test_errors_of_ofb :
    writeMeets 0x00 0x00000004 (fun t => statusWord t == 0x00000416) expanded = true ∧
    writeMeets 0x00 0x00000005 (fun t => statusWord t == 0x0000051E) opened = true := by
  decide +kernel

theorem test_errors_while_busy :
    writeMeets 0x00 0x00000007 (fun t => t.errCode == 0x2 && t.pending == some .keyexp)
      (pendingOf .keyexp State.reset) = true ∧
    writeMeets 0x10 0x2B7E1516 (fun t => t.errCode == 0x2 && t.key == Block.zero)
      (pendingOf .keyexp State.reset) = true ∧
    writeMeets 0x04 0x00000002 (fun t => !t.done && !t.err) (pendingOf .keyexp State.reset) = true := by
  decide

theorem test_error_kept_and_cleared :
    writeMeets 0x00 0x00000007 (fun t => t.errCode == 0x3) { State.reset with err := true, errCode := 0x3 } = true ∧
    writeMeets 0x04 0x00000010 (fun t => !t.err && t.errCode == 0x0)
      { State.reset with err := true, errCode := 0x3 } = true ∧
    writeMeets 0x04 0xFFFFFFFF (fun t => statusWord t == 0x0000000C)
      { opened with err := true, errCode := 0x3 } = true := by
  decide +kernel

theorem test_operand_writes_of_open_message :
    writeMeets 0x10 0x00000000 (fun t => statusWord t == 0x00000002) opened = true ∧
    writeMeets 0x20 0xFFFFFFFF (fun t => statusWord t == 0x0000000E && t.chain == bytes0to15) opened = true := by
  decide +kernel

theorem test_interrupt :
    irq { State.reset with doneIe := true, done := true } = true ∧
    writeMeets 0x04 0x00000002 (fun t => !irq t) { State.reset with doneIe := true, done := true } = true ∧
    writeMeets 0x00 0x00000002 irq { State.reset with errIe := true } = true := by
  decide

theorem test_register_accesses :
    writeMeets 0x10 0x00010203 (fun t => busRead 0x10 t == 0x00000000 && t.key.c0 == ⟨0x00, 0x01, 0x02, 0x03⟩)
      State.reset = true ∧
    writeMeets 0x20 0x0C0D0E0F (fun t => busRead 0x20 t == 0x0C0D0E0F && t.iv.c0 == ⟨0x0c, 0x0d, 0x0e, 0x0f⟩)
      State.reset = true ∧
    writeMeets 0x40 0x12345678 (fun t => t.dout == Block.zero) State.reset = true ∧
    writeMeets 0x08 0xFFFFFFFF (fun t => busRead 0x08 t == 0x00000003) State.reset = true ∧
    hostAccess ⟨.read, 0x06, .four⟩ State.reset = (⟨.error, 0x00000000⟩, State.reset) ∧
    hostAccess ⟨.write 0x00000000, 0x00, .one⟩ State.reset = (⟨.error, 0x00000000⟩, State.reset) := by
  decide

/-- Reset while a KEYEXP is pending (95_test_vectors.md 2.9). -/
theorem test_reset_abandons :
    stepMeets (fun t => statusWord t == 0x00000000 && t.pending == none)
      (setScript [.assertReset] (pendingOf .keyexp State.reset)) = true := by
  decide

/-- A placed command runs as the first step after reset; an illegal word is met as a rejected CMD write (log 4). -/
theorem test_withFetchWord :
    stepMeets (fun t => t.chainValid && t.cmdLast == 0x00000003) (State.reset.withFetchWord 32 0x3) = true ∧
    stepMeets (fun t => t.errCode == 0x1 && t.cmdLast == 0x00000000) (State.reset.withFetchWord 32 0x7) = true := by
  decide

/-- A line of a host program with a misaligned register stops the program (30_encoding.md R65, log 6). -/
theorem test_line_busError : runLine (.rd 0x06 0) State.reset = .fault .busError := rfl

/-- RUN KEYEXP is one write and a poll loop (30_encoding.md R66; 95_test_vectors.md 3.1). -/
theorem test_run_expansion : expandPseudo (.run .keyexp 0) =
    [.wr 0x00 0x00000001, .label 0, .rd 0x04 7, .bnz 7 0x00000001 0] := by
  decide

/-- With LAT = 2 a command accepted in one cycle is pending after the next and complete after the one following
(70_reset_and_hazards.md R140). -/
theorem test_latency_two :
    (match cycle (fun _ => 2) ⟨false, none⟩ ⟨pendingOf .nop State.reset, 0⟩ with
      | .next u => u.state.busy &&
        (match cycle (fun _ => 2) ⟨false, none⟩ u with
          | .next v => !v.state.busy && v.state.done
          | .fault _ => false
          | .refused _ => false)
      | .fault _ => false
      | .refused _ => false) = true := by
  decide

/-! ### Witnesses: a concrete state and operands for every hypothesis of the obligations -/

/-- The invariant holds in an open message with a pending OFB_BLOCK. -/
theorem witness_blockInv_pending : BlockInv (pendingOf .ofbBlock opened) where
  keyCached := fun _ => rfl
  errIff := by decide
  errCodeDefined := by decide
  doneIdle := fun h => absurd h (by decide)
  pendingAccepted := by
    intro i h
    cases h
    exact ⟨rfl, rfl⟩
  heldInReset := fun h => absurd h (by decide)

/-- The invariant holds in an open message with nothing pending, and an error recorded. -/
theorem witness_blockInv_idle : BlockInv { opened with err := true, errCode := 0x5 } where
  keyCached := fun _ => rfl
  errIff := by decide
  errCodeDefined := by decide
  doneIdle := fun _ => rfl
  pendingAccepted := fun _ h => nomatch h
  heldInReset := fun h => absurd h (by decide)

/-- EncodeOfDecodeIsTheWord, DecodingFollowsTheOpcodeMap: a word that decodes, one of each illegal kind, and a row match. -/
theorem witness_decode : decode 0x00000F05 = .ok (.ofbFinal 15) ∧ decode 0x00000007 = .error .reservedOpcode ∧
    (0x00000F05 : Word) &&& (Instr.ofbFinal 0).rowMask = (Instr.ofbFinal 0).rowMatch := by
  decide

/-- ResetTakesEveryElement: its four clauses. -/
theorem witness_reset :
    SameBlock State.reset { State.reset with env := { Env.initial with rst := true } } ∧
    (setScript [.assertReset] (pendingOf .keyexp State.reset)).env.script = [.assertReset] ∧
    ((setScript [.engine] (setRst true State.reset)).env.rst = true ∧
      (setScript [.engine] (setRst true State.reset)).env.script = [.engine]) ∧
    ((setScript [busRead32 0x04] (setRst true State.reset)).env.rst = true ∧
      (setScript [busRead32 0x04] (setRst true State.reset)).env.script = [busRead32 0x04]) :=
  ⟨rfl, rfl, ⟨rfl, rfl⟩, rfl, rfl⟩

/-- InvariantKeptByEveryStep, OpenMessageChainAdvances (its case of a completion of OFB_BLOCK), and
StepRunsTheDueAct's first clause: the invariant, an open message after 0 blocks, a next state. -/
theorem witness_chain_block : BlockInv (pendingOf .ofbBlock opened) ∧
    ChainAt bytes0to15 0 (pendingOf .ofbBlock opened) ∧ act (pendingOf .ofbBlock opened) = .complete .ofbBlock ∧
    ∃ t, step (pendingOf .ofbBlock opened) = .next t :=
  ⟨witness_blockInv_pending, ⟨rfl, rfl⟩, rfl, _, rfl⟩

/-- OpenMessageChainAdvances: a message after one block that an access leaves open. -/
theorem witness_chain_kept :
    let s := setScript [busRead32 0x04] { opened with chain := aes keyB bytes0to15 }
    ChainAt bytes0to15 1 s ∧ act s ≠ .complete .ofbBlock ∧ ∃ t, step s = .next t ∧ t.chainValid = true :=
  ⟨⟨rfl, rfl⟩, by decide, _, rfl, rfl⟩

/-- OpenMessageChainAdvances: a message that CLEAR closes, and one that OFB_INIT replaces. -/
theorem witness_chain_closed_and_replaced :
    (ChainAt bytes0to15 0 (pendingOf .clear opened) ∧ ∃ t, step (pendingOf .clear opened) = .next t ∧
      t.chainValid = false) ∧
    (ChainAt bytes0to15 0 (pendingOf .ofbInit opened) ∧ ∃ t, step (pendingOf .ofbInit opened) = .next t ∧
      ChainAt (pendingOf .ofbInit opened).iv 0 t) :=
  ⟨⟨⟨rfl, rfl⟩, _, rfl, rfl⟩, ⟨rfl, rfl⟩, _, rfl, rfl, rfl⟩

/-- ReadsReturnTheRegisterMap, IgnoredWrites, BusErrorsChangeNothing: offsets at the ends of their ranges. -/
theorem witness_offsets :
    0x50 ≤ (0x50 : BitVec 7).toNat ∧ 0x50 ≤ (0x7F : BitVec 7).toNat ∧
    (0x0C : BitVec 7).toNat / 4 = 3 ∧ (0x0F : BitVec 7).toNat / 4 = 3 ∧ 0x40 ≤ (0x40 : BitVec 7).toNat ∧
    AccessSize.one ≠ .four ∧ AccessSize.two ≠ .four ∧ (0x01 : BitVec 7).toNat % 4 ≠ 0 ∧
    (0x7F : BitVec 7).toNat % 4 ≠ 0 ∧ (0x7C : BitVec 7).toNat % 4 = 0 ∧ State.reset.env.rst = false := by
  decide

/-- PackingIsBigEndian: the first and the last byte of a register. -/
theorem witness_packing : (0 : Fin 16).val / 4 = (0 : Fin 4).val ∧ (3 : Fin 16).val / 4 = (0 : Fin 4).val ∧
    (12 : Fin 16).val / 4 = (3 : Fin 4).val ∧ (15 : Fin 16).val / 4 = (3 : Fin 4).val := by
  decide

/-- RejectedWritesOnlyRecordTheError: each error of a CMD write, and an operand write while busy. -/
theorem witness_rejected :
    checkCmd 0x00000000 (pendingOf .nop State.reset) = some .busy ∧ checkCmd 0x00000007 State.reset = some .illegalCmd ∧
    checkCmd 0x00000005 State.reset = some .badLen ∧ checkCmd 0x00000002 State.reset = some .noKey ∧
    checkCmd 0x00000004 expanded = some .noChain ∧
    (pendingOf .nop State.reset).busy = true ∧ BlockReg.key ≠ .dout ∧ BlockReg.din ≠ .dout := by
  decide +kernel

/-- AcceptedCommandIsPending, InterruptOutput: an accepted word of every command. -/
theorem witness_accepted :
    checkCmd 0x00000000 State.reset = none ∧ checkCmd 0x00000001 State.reset = none ∧
    checkCmd 0x00000002 expanded = none ∧ checkCmd 0x00000003 State.reset = none ∧
    checkCmd 0x00000004 opened = none ∧ checkCmd 0x00000105 opened = none ∧ checkCmd 0x00000F05 opened = none ∧
    checkCmd 0x00000006 State.reset = none := by
  decide +kernel

/-- The statements on which step changes which register: a step that writes CMD and is accepted, and one that is
rejected. -/
theorem witness_step_cmd :
    (Writes (setScript [busWrite32 0x00 0x00000001] State.reset) .cmd 0x00000001 ∧
      checkCmd 0x00000001 (setScript [busWrite32 0x00 0x00000001] State.reset) = none ∧
      ∃ t, step (setScript [busWrite32 0x00 0x00000001] State.reset) = .next t) ∧
    (Writes (setScript [busWrite32 0x00 0x00000002] State.reset) .cmd 0x00000002 ∧
      checkCmd 0x00000002 (setScript [busWrite32 0x00 0x00000002] State.reset) = some .noKey ∧
      ∃ t, step (setScript [busWrite32 0x00 0x00000002] State.reset) = .next t) :=
  ⟨⟨rfl, rfl, _, rfl⟩, rfl, rfl, _, rfl⟩

/-- The same statements: steps that write STATUS, IEN, KEY3, IV3 and DIN3, idle and busy. -/
theorem witness_step_writes :
    (Writes (setScript [busWrite32 0x04 0x00000010] State.reset) .status 0x00000010 ∧
      (0x00000010 : Word).getLsbD 4 = true ∧ ∃ t, step (setScript [busWrite32 0x04 0x00000010] State.reset) = .next t) ∧
    (Writes (setScript [busWrite32 0x08 0x00000003] State.reset) .ien 0x00000003 ∧
      ∃ t, step (setScript [busWrite32 0x08 0x00000003] State.reset) = .next t) ∧
    (Writes (setScript [busWrite32 0x1C 0xFFFFFFFF] State.reset) (.key 3) 0xFFFFFFFF ∧
      ∃ t, step (setScript [busWrite32 0x1C 0xFFFFFFFF] State.reset) = .next t) ∧
    (Writes (setScript [busWrite32 0x2C 0xFFFFFFFF] State.reset) (.iv 3) 0xFFFFFFFF ∧
      ∃ t, step (setScript [busWrite32 0x2C 0xFFFFFFFF] State.reset) = .next t) ∧
    (Writes (setScript [busWrite32 0x3C 0xFFFFFFFF] (pendingOf .nop State.reset)) (.din 3) 0xFFFFFFFF ∧
      (setScript [busWrite32 0x3C 0xFFFFFFFF] (pendingOf .nop State.reset)).busy = true ∧
      ∃ t, step (setScript [busWrite32 0x3C 0xFFFFFFFF] (pendingOf .nop State.reset)) = .next t) :=
  ⟨⟨rfl, by decide, _, rfl⟩, ⟨rfl, _, rfl⟩, ⟨rfl, _, rfl⟩, ⟨rfl, _, rfl⟩, rfl, rfl, _, rfl⟩

/-- The same statements: a completion of each command, and the assertion of reset. -/
theorem witness_step_acts :
    (act (pendingOf .nop State.reset) = .complete .nop ∧ ∃ t, step (pendingOf .nop State.reset) = .next t) ∧
    (act (pendingOf .keyexp State.reset) = .complete .keyexp ∧ ∃ t, step (pendingOf .keyexp State.reset) = .next t) ∧
    (act (pendingOf .enc expanded) = .complete .enc ∧ ∃ t, step (pendingOf .enc expanded) = .next t) ∧
    (act (pendingOf .ofbInit opened) = .complete .ofbInit ∧ ∃ t, step (pendingOf .ofbInit opened) = .next t) ∧
    (act (pendingOf .ofbBlock opened) = .complete .ofbBlock ∧ ∃ t, step (pendingOf .ofbBlock opened) = .next t) ∧
    (act (pendingOf (.ofbFinal 1) opened) = .complete (.ofbFinal 1) ∧
      ∃ t, step (pendingOf (.ofbFinal 1) opened) = .next t) ∧
    (act (pendingOf .clear opened) = .complete .clear ∧ ∃ t, step (pendingOf .clear opened) = .next t) ∧
    (act (setScript [.assertReset] opened) = .assertReset ∧ ∃ t, step (setScript [.assertReset] opened) = .next t) :=
  ⟨⟨rfl, _, rfl⟩, ⟨rfl, _, rfl⟩, ⟨rfl, _, rfl⟩, ⟨rfl, _, rfl⟩, ⟨rfl, _, rfl⟩, ⟨rfl, _, rfl⟩, ⟨rfl, _, rfl⟩, rfl, _, rfl⟩

/-- The "nothing else changes it" clauses: a step that is a read neither writes a register, nor completes a command, nor
resets. -/
theorem witness_step_quiet :
    let s := setScript [busRead32 0x04] opened
    (∀ r v, ¬ Writes s r v) ∧ (∀ i, act s ≠ .complete i) ∧ act s ≠ .assertReset ∧ ∃ t, step s = .next t :=
  ⟨fun _ _ h => (nomatch h), fun _ h => (nomatch h), fun h => (nomatch h), _, rfl⟩

/-- PendingChangesOnAcceptanceAndCompletion, StepRunsTheDueAct, PendingResultsUnaffectedByTheHost: a pending command
with `rst` released; nothing pending. -/
theorem witness_pending : (pendingOf .enc expanded).pending = some .enc ∧ (pendingOf .enc expanded).env.rst = false ∧
    (pendingOf .enc expanded).env.script = [.engine] ∧ (setScript [] (pendingOf .enc expanded)).env.script = [] ∧
    (setScript [.engine] State.reset).pending = none :=
  ⟨rfl, rfl, rfl, rfl, rfl⟩

/-- StepRunsTheDueAct: an access due, and a table word that decodes. -/
theorem witness_due : (setScript [busRead32 0x04] State.reset).env.rst = false ∧
    (setScript [busRead32 0x04] State.reset).env.script = [busRead32 0x04] ∧
    decodeTableWord 32 0x105 = some (.ofbFinal 1) :=
  ⟨rfl, rfl, rfl⟩

/-- OfbFinalCommand: LEN at both ends of its range. -/
theorem witness_len : (1 : BitVec 4) ≠ 0 ∧ (15 : BitVec 4) ≠ 0 := by
  decide

/-- CompletionFrame, InterruptOutput: completions of commands of each shape with DONE_IE set, and offsets its clauses
name. -/
theorem witness_frame : (∃ t, exec .keyexp { State.reset with doneIe := true } = .next t) ∧
    (∃ t, exec .enc expanded = .next t) ∧ (∃ t, exec .clear opened = .next t) ∧
    (0x08 : BitVec 7).toNat / 4 ≠ 1 ∧ (0x4C : BitVec 7).toNat / 4 ≠ 1 ∧ (0x3C : BitVec 7).toNat < 0x40 ∧
    (0x1C : BitVec 7).toNat < 0x20 ∧ 0x50 ≤ (0x50 : BitVec 7).toNat :=
  ⟨⟨_, rfl⟩, ⟨_, rfl⟩, ⟨_, rfl⟩, by decide, by decide, by decide, by decide, by decide⟩

/-- IssuedCommandCompletes: every command in a state that accepts it. -/
theorem witness_issue : opened.pending = none ∧ opened.env.rst = false ∧ checkDecoded .nop opened = none ∧
    checkDecoded .keyexp opened = none ∧ checkDecoded .enc opened = none ∧ checkDecoded .ofbInit opened = none ∧
    checkDecoded .ofbBlock opened = none ∧ checkDecoded (.ofbFinal 1) opened = none ∧
    checkDecoded (.ofbFinal 15) opened = none ∧ checkDecoded .clear opened = none :=
  ⟨rfl, rfl, rfl, rfl, rfl, rfl, rfl, rfl, rfl, rfl⟩

/-- EncCommand, KeyexpCommand: the invariant with KEY_VALID = 1. -/
theorem witness_enc : BlockInv { opened with err := true, errCode := 0x5 } ∧ opened.keyValid = true :=
  ⟨witness_blockInv_idle, rfl⟩

/-- TablesAgreeWithTheirDefinitions, KeyScheduleRecurrence, OfbKeepsTheLengthAndXorsTheKeystream: the ends of their
ranges. -/
theorem witness_ranges : (0x01 : Byte) ≠ 0 ∧ (0xFF : Byte) ≠ 0 ∧ 1 ≤ 1 ∧ 9 ≤ 9 ∧ 0 + 4 < 44 ∧ 39 + 4 < 44 ∧
    4 * 0 + 4 < 44 ∧ 4 * 9 + 4 < 44 ∧ 10 ≤ 10 ∧
    sbox 0x53 = sbox 0x53 ∧ 16 < (List.replicate 17 (0 : Byte)).length := by
  decide

/-- CipherIsInjective: equal outputs of equal inputs. -/
theorem witness_injective : cipher (keyExpansion keyB) plain1 = cipher (keyExpansion keyB) plain1 := rfl

/-- OfbProtocolComputesTheTransform: a state with an error recorded, a message of 33 bytes. -/
theorem witness_protocol : ({ opened with err := true, errCode := 0x5 } : State).pending = none ∧
    ({ opened with err := true, errCode := 0x5 } : State).env.rst = false ∧
    (List.replicate 33 (0 : Byte)).length % 16 = 1 :=
  ⟨rfl, rfl, rfl⟩

/-- CompletionAfterLatency: an accepted write; a pending command and a latency of 2, before and at its last cycle. -/
theorem witness_latency : State.reset.env.rst = false ∧ checkCmd 0x00000000 State.reset = none ∧
    (pendingOf .nop State.reset).pending = some .nop ∧ (pendingOf .nop State.reset).env.rst = false ∧
    (∀ c ∈ [(⟨false, some ⟨.read, 0x04, .four⟩⟩ : CycleInput)], c.rst = false) ∧
    [(⟨false, some ⟨.read, 0x04, .four⟩⟩ : CycleInput)].length + 1 = 2 := by
  decide

/-- ClockedRunsAreUntimedRuns: a run of three cycles, reset among them, and its events. -/
theorem witness_clocked_events : clockedEvents (fun _ => 1)
    [⟨false, none⟩, ⟨true, none⟩, ⟨false, some ⟨.write 0x00000001, 0x00, .four⟩⟩] ⟨pendingOf .nop State.reset, 0⟩ =
      [.releaseReset, .engine, .assertReset, .releaseReset, busWrite32 0x00 0x00000001] := by
  decide

/-- The same run answers a next state. -/
theorem witness_clocked : ∃ u, cycles (fun _ => 1)
    [⟨false, none⟩, ⟨true, none⟩, ⟨false, some ⟨.write 0x00000001, 0x00, .four⟩⟩] ⟨pendingOf .nop State.reset, 0⟩ =
      .next u :=
  ⟨_, rfl⟩

/-- HostLines: a label that is there and one that is not, a temporary that meets a mask and one that does not, `rst` at
both levels. -/
theorem witness_lines :
    let s := setHost { Env.initial.host with program := [.label 3], temps := Vector.replicate 8 0x00000001 } State.reset
    labelIndex s.env.host.program 3 = some 0 ∧ labelIndex s.env.host.program 4 = none ∧
    s.env.host.temps[(7 : Fin 8)] &&& 0x00000001 ≠ 0 ∧ s.env.host.temps[(0 : Fin 8)] &&& 0x00000002 = 0 ∧
    s.env.host.temps[(7 : Fin 8)] = 0x00000001 ∧ s.env.host.temps[(7 : Fin 8)] ≠ 0x00000002 ∧
    s.env.rst = false ∧ (setRst true s).env.rst = true := by
  decide

/-- PseudoInstructionsRun: a state for each of its programs, idle for WRBLK. -/
theorem witness_pseudo :
    let at0 := fun l : PseudoLine => setHost { Env.initial.host with program := expandPseudo l } State.reset
    BlockReg.key ≠ .dout ∧ BlockReg.iv ≠ .key ∧ BlockReg.iv ≠ .dout ∧ BlockReg.din ≠ .dout ∧
    (at0 (.wrblk .iv bytes0to15)).pending = none ∧ (at0 (.wrblk .iv bytes0to15)).env.rst = false ∧
    (at0 (.wrblk .iv bytes0to15)).env.host.program = expandPseudo (.wrblk .iv bytes0to15) ∧
    (at0 (.wrblk .iv bytes0to15)).env.host.pc = 0 ∧
    (at0 (.rdblk .dout 0 1 2 3)).env.host.program = expandPseudo (.rdblk .dout 0 1 2 3) ∧
    (at0 (.wait 0)).env.host.program = expandPseudo (.wait 0) ∧
    (at0 (.issue .enc)).env.host.program = expandPseudo (.issue .enc) ∧
    (at0 .clrst).env.host.program = expandPseudo .clrst := by
  decide

/-- WindowAddressDecoding: the first and the last address of a window, and the addresses beside it. -/
theorem witness_window :
    accessAt 0x1000 0x1000 .read .four = some ⟨.read, 0x00, .four⟩ ∧
    accessAt 0x1000 0x107F .read .one = some ⟨.read, 0x7F, .one⟩ ∧
    accessAt 0x1000 0x1080 .read .four = none ∧ accessAt 0x1000 0x0FFF .read .four = none ∧ 0x1000 % 0x80 = 0 := by
  decide

end Sys2Proof.Tests
end

section
/-! Proofs: the block after one step, said once for all fields: the writes of the register window each in one update,
and the four kinds of step. -/

namespace Sys2Proof.Machine

variable (s : State)

@[simp] theorem setEnv_cmdLast (e : Env) : (setEnv s e).cmdLast = s.cmdLast := rfl
@[simp] theorem setEnv_done (e : Env) : (setEnv s e).done = s.done := rfl
@[simp] theorem setEnv_keyValid (e : Env) : (setEnv s e).keyValid = s.keyValid := rfl
@[simp] theorem setEnv_chainValid (e : Env) : (setEnv s e).chainValid = s.chainValid := rfl
@[simp] theorem setEnv_err (e : Env) : (setEnv s e).err = s.err := rfl
@[simp] theorem setEnv_errCode (e : Env) : (setEnv s e).errCode = s.errCode := rfl
@[simp] theorem setEnv_doneIe (e : Env) : (setEnv s e).doneIe = s.doneIe := rfl
@[simp] theorem setEnv_errIe (e : Env) : (setEnv s e).errIe = s.errIe := rfl
@[simp] theorem setEnv_key (e : Env) : (setEnv s e).key = s.key := rfl
@[simp] theorem setEnv_iv (e : Env) : (setEnv s e).iv = s.iv := rfl
@[simp] theorem setEnv_din (e : Env) : (setEnv s e).din = s.din := rfl
@[simp] theorem setEnv_dout (e : Env) : (setEnv s e).dout = s.dout := rfl
@[simp] theorem setEnv_rk (e : Env) : (setEnv s e).rk = s.rk := rfl
@[simp] theorem setEnv_cipherState (e : Env) : (setEnv s e).cipherState = s.cipherState := rfl
@[simp] theorem setEnv_chain (e : Env) : (setEnv s e).chain = s.chain := rfl
@[simp] theorem setEnv_ks (e : Env) : (setEnv s e).ks = s.ks := rfl
@[simp] theorem setEnv_pending (e : Env) : (setEnv s e).pending = s.pending := rfl

/-! ### The registers of the window, each write in one update -/

/-- ERR_CODE after a write that raised an error, or none (60_exceptions.md R124). -/
def errCodeAfter : Option HostError → State → BitVec 4
  | none, s => s.errCode
  | some e, s => if s.err then s.errCode else errorCode e

/-- A write to CMD (44_commands.md R105, R106, 60_exceptions.md R124). -/
@[simp] theorem writeReg_cmd (v : Word) : writeReg .cmd v s =
    { s with cmdLast := if checkCmd v s = none then v else s.cmdLast
             pending := if checkCmd v s = none then decode? v else s.pending
             done := if checkCmd v s = none then false else s.done
             err := s.err || (checkCmd v s).isSome
             errCode := errCodeAfter (checkCmd v s) s } := by
  cases h : checkCmd v s <;> simp [writeReg, writeCmd, h, accept, raiseError_eq, errCodeAfter]

/-- A write to STATUS (44_commands.md R119). -/
@[simp] theorem writeReg_status (v : Word) : writeReg .status v s =
    { s with done := s.done && !v.getLsbD 1, err := s.err && !v.getLsbD 4,
             errCode := if v.getLsbD 4 then 0x0 else s.errCode } :=
  writeStatus_eq s v

/-- A write to IEN (10_state.md R27). -/
@[simp] theorem writeReg_ien (v : Word) : writeReg .ien v s =
    { s with doneIe := v.getLsbD 0, errIe := v.getLsbD 1 } := rfl

/-- A write to KEYk (44_commands.md R116). -/
@[simp] theorem writeReg_key (k : Fin 4) (v : Word) : writeReg (.key k) v s =
    { s with key := if s.busy then s.key else unpack s.key v k
             keyValid := s.keyValid && s.busy
             chainValid := s.chainValid && s.busy
             err := s.err || (checkOperandWrite s).isSome
             errCode := errCodeAfter (checkOperandWrite s) s } := by
  cases h : s.pending <;>
    simp [writeReg, writeKey, operandWrite_eq, checkOperandWrite, h, setKey, raiseError_eq, errCodeAfter]

/-- A write to IVk (44_commands.md R117). -/
@[simp] theorem writeReg_iv (k : Fin 4) (v : Word) : writeReg (.iv k) v s =
    { s with iv := if s.busy then s.iv else unpack s.iv v k
             err := s.err || (checkOperandWrite s).isSome
             errCode := errCodeAfter (checkOperandWrite s) s } := by
  cases h : s.pending <;>
    simp [writeReg, writeIv, operandWrite_eq, checkOperandWrite, h, setIv, raiseError_eq, errCodeAfter]

/-- A write to DINk (44_commands.md R118). -/
@[simp] theorem writeReg_din (k : Fin 4) (v : Word) : writeReg (.din k) v s =
    { s with din := if s.busy then s.din else unpack s.din v k
             err := s.err || (checkOperandWrite s).isSome
             errCode := errCodeAfter (checkOperandWrite s) s } := by
  cases h : s.pending <;>
    simp [writeReg, writeDin, operandWrite_eq, checkOperandWrite, h, setDin, raiseError_eq, errCodeAfter]

/-- A write to DOUTk is ignored (20_memory.md R44). -/
@[simp] theorem writeReg_dout (k : Fin 4) (v : Word) : writeReg (.dout k) v s = s := rfl

/-- A write to a reserved offset is ignored (20_memory.md R44). -/
@[simp] theorem writeReg_reserved (v : Word) : writeReg .reserved v s = s := rfl

/-! ### The kinds of step -/

variable {s} {t : State}

/-- A step that writes a register leaves the block as that write does. -/
theorem step_of_writes (h : step s = .next t) {r : Reg} {v : Word} (hw : Writes s r v) :
    ∃ e, t = setEnv (writeReg r v s) e :=
  ⟨t.env, blockAfter_of_writes hw ▸ (step_cases h).1⟩

/-- A step that is a completion is of the pending command, and leaves the block as the command does. -/
theorem step_of_complete (h : step s = .next t) {i : Instr} (ha : act s = .complete i) :
    s.pending = some i ∧ ∃ e, t = setEnv (completed i s) e := by
  obtain ⟨ht, -, -, hp⟩ := step_cases h
  exact ⟨hp i ha, t.env, by rwa [ha] at ht⟩

/-- A step that asserts `rst` leaves the block in its reset state. -/
theorem step_of_assertReset (h : step s = .next t) (ha : act s = .assertReset) :
    ∃ e, t = setEnv (resetBlock s) e := by
  obtain ⟨ht, -, -, -⟩ := step_cases h
  exact ⟨t.env, by rwa [ha] at ht⟩

/-- INVERSION for the block: a step writes one register, or completes the pending command, or asserts `rst`, or leaves
the block as it is. -/
theorem step_block_cases (h : step s = .next t) :
    (∃ r v, Writes s r v ∧ ∃ e, t = setEnv (writeReg r v s) e) ∨
    (∃ i, act s = .complete i ∧ s.pending = some i ∧ ∃ e, t = setEnv (completed i s) e) ∨
    (act s = .assertReset ∧ ∃ e, t = setEnv (resetBlock s) e) ∨
    (act s ≠ .assertReset ∧ (∀ i, act s ≠ .complete i) ∧ (∀ r v, ¬ Writes s r v) ∧ ∃ e, t = setEnv s e) := by
  rcases blockAfter_cases s with ⟨r, v, hw, -⟩ | ⟨i, ha, -⟩ | ⟨ha, -⟩ | ⟨hr, hc, hw, hb⟩
  · exact .inl ⟨r, v, hw, step_of_writes h hw⟩
  · exact .inr (.inl ⟨i, ha, step_of_complete h ha⟩)
  · exact .inr (.inr (.inl ⟨ha, step_of_assertReset h ha⟩))
  · exact .inr (.inr (.inr ⟨hr, hc, hw, t.env, hb ▸ (step_cases h).1⟩))

end Sys2Proof.Machine
end

section
/-! Proofs: the invariant of the block (O8, O9) and the chaining register of an open message (O10). -/

namespace Sys2Proof.Machine

variable {s t : State}

/-- The acceptance checks of a command read the two valid bits only (60_exceptions.md R122). -/
theorem checkDecoded_congr {i : Instr} (hk : t.keyValid = s.keyValid) (hc : t.chainValid = s.chainValid) :
    checkDecoded i t = checkDecoded i s := by
  simp only [checkDecoded, hk, hc]

/-- The reset state meets the invariant (70_reset_and_hazards.md R133). -/
theorem resetBlock_blockInv (s : State) : BlockInv (resetBlock s) where
  keyCached h := by cases h
  errIff := ⟨fun _ => rfl, fun _ => rfl⟩
  errCodeDefined := Nat.zero_le 5
  doneIdle _ := rfl
  pendingAccepted _ h := by cases h
  heldInReset _ := rfl

/-- The code of an error is not 0 (60_exceptions.md R121). -/
theorem errorCode_ne_zero (e : HostError) : errorCode e ≠ 0x0 := by
  cases e <;> decide

/-- The code of an error is not a reserved one (60_exceptions.md R121). -/
theorem errorCode_le (e : HostError) : (errorCode e).toNat ≤ 5 := by
  cases e <;> decide

/-- Recording an error keeps the invariant. -/
theorem raiseError_blockInv (hs : BlockInv s) (hrst : s.env.rst = false) (e : HostError) :
    BlockInv (raiseError e s) where
  keyCached := by simpa using hs.keyCached
  errIff := by
    have := hs.errIff
    have := errorCode_ne_zero e
    cases he : s.err <;> simp_all
  errCodeDefined := by
    have := hs.errCodeDefined
    cases he : s.err <;> simp [he, errorCode_le e, this]
  doneIdle := by simpa using hs.doneIdle
  pendingAccepted i hp := by
    rw [checkDecoded_congr (raiseError_keyValid s e) (raiseError_chainValid s e)]
    simpa using hs.pendingAccepted i (by simpa using hp)
  heldInReset := by simp [hrst]

/-- A STATUS write keeps the invariant. -/
theorem writeStatus_blockInv (hs : BlockInv s) (hrst : s.env.rst = false) (v : Word) :
    BlockInv (writeStatus v s) := by
  rw [writeStatus_eq]
  exact
    { keyCached := hs.keyCached
      errIff := by
        have := hs.errIff
        cases v.getLsbD 4 <;> simp [this]
      errCodeDefined := by
        have := hs.errCodeDefined
        cases v.getLsbD 4 <;> simp [this]
      doneIdle := fun hd => hs.doneIdle (by simp_all)
      pendingAccepted := hs.pendingAccepted
      heldInReset := by simp [hrst] }

/-- A CMD write keeps the invariant: an accepted word is that of a command whose checks pass. -/
theorem writeCmd_blockInv (hs : BlockInv s) (hrst : s.env.rst = false) (v : Word) : BlockInv (writeCmd v s) := by
  rcases writeCmd_cases s v with ⟨e, -, h⟩ | ⟨i, -, hd, hc, -, h⟩ <;> rw [h]
  · exact raiseError_blockInv hs hrst e
  · exact
      { keyCached := hs.keyCached
        errIff := hs.errIff
        errCodeDefined := hs.errCodeDefined
        doneIdle := by simp
        pendingAccepted := by
          rintro j ⟨⟩
          obtain ⟨hh, hl, ho, hlen⟩ := decode_ok hd
          exact ⟨hc, by rw [encode, ho, hlen, cmdWord_fields hl hh]⟩
        heldInReset := by simp [hrst] }

/-- An accepted KEY write keeps the invariant: no command is pending, and the schedule is invalid after it. -/
theorem setKey_blockInv (hs : BlockInv s) (hrst : s.env.rst = false) (hb : s.busy = false) (k : Fin 4) (v : Word) :
    BlockInv (setKey k v s) where
  keyCached := by simp
  errIff := hs.errIff
  errCodeDefined := hs.errCodeDefined
  doneIdle := hs.doneIdle
  pendingAccepted := by simp_all
  heldInReset := by simp [hrst]

/-- Every write of a register keeps the invariant. -/
theorem writeReg_blockInv (hs : BlockInv s) (hrst : s.env.rst = false) (r : Reg) (v : Word) :
    BlockInv (writeReg r v s) := by
  rcases writeReg_cases s r v with ⟨_, -, h⟩ | ⟨-, h⟩ | ⟨-, h⟩ | ⟨-, h⟩ | ⟨-, h⟩ | ⟨-, -, h⟩ | ⟨k, -, hb, h⟩ |
    ⟨k, -, -, h⟩ | ⟨k, -, -, h⟩ <;> rw [h]
  · exact hs
  · exact hs
  · exact writeStatus_blockInv hs hrst v
  · exact { hs with heldInReset := by simp [hrst] }
  · exact writeCmd_blockInv hs hrst v
  · exact raiseError_blockInv hs hrst .busy
  · exact setKey_blockInv hs hrst hb k v
  · exact { hs with heldInReset := by simp [hrst] }
  · exact { hs with heldInReset := by simp [hrst] }

/-- A completion keeps the cached schedule (10_state.md R39): KEYEXP computes it, CLEAR invalidates it, and no other
command touches it. -/
theorem completed_keyCached (hs : BlockInv s) (i : Instr) (h : (completed i s).keyValid = true) :
    (completed i s).rk = keyExpansion (completed i s).key := by
  cases i with
  | keyexp => rfl
  | clear => cases h
  | nop | enc | ofbInit | ofbBlock | ofbFinal _ => exact hs.keyCached h

/-- Every completion keeps the invariant. -/
theorem completed_blockInv (hs : BlockInv s) (hrst : s.env.rst = false) (i : Instr) : BlockInv (completed i s) where
  keyCached := completed_keyCached hs i
  errIff := by simpa using hs.errIff
  errCodeDefined := by simpa using hs.errCodeDefined
  doneIdle := by simp
  pendingAccepted := by simp
  heldInReset := by simp [hrst]

/-- The invariant speaks of the environment only where `rst` is asserted. -/
theorem setEnv_blockInv (hs : BlockInv s) {e : Env} (he : e.rst = true → resetBlock s = s) : BlockInv (setEnv s e) := by
  refine { hs with heldInReset := fun hr => ?_ }
  change setEnv (resetBlock s) e = setEnv s e
  rw [he hr]

/-- The block after the act of a step meets the invariant, and is the reset state where `rst` is asserted after it. -/
theorem blockAfter_blockInv (hs : BlockInv s)
    (released : (∃ acc, act s = .access acc) ∨ (∃ i, act s = .complete i) → s.env.rst = false) :
    BlockInv (blockAfter (act s) s) ∧
      (rstAfter (act s) s.env.rst = true → resetBlock (blockAfter (act s) s) = blockAfter (act s) s) := by
  cases ha : act s with
  | complete i =>
    have hrst := released (.inr ⟨i, ha⟩)
    exact ⟨completed_blockInv hs hrst i, by simp [rstAfter, hrst]⟩
  | access a =>
    have hrst := released (.inl ⟨a, ha⟩)
    refine ⟨?_, by simp [rstAfter, hrst]⟩
    rcases access_writes_or_keeps ha with ⟨r, v, hw⟩ | hk
    · rw [← ha, blockAfter_of_writes hw]
      exact writeReg_blockInv hs hrst r v
    · rwa [← ha, hk]
  | assertReset => exact ⟨resetBlock_blockInv s, fun _ => rfl⟩
  | releaseReset => exact ⟨hs, by simp [rstAfter]⟩
  | hostOnly | idle => exact ⟨hs, hs.heldInReset⟩

/-- Settles O8: the reset state is a block in reset. -/
theorem invariantHoldsAtReset : Obligations.InvariantHoldsAtReset := resetBlock_blockInv State.reset

/-- Settles O9: the block after the act meets the invariant, and the environment after the step asserts `rst` only over
a block in reset. -/
theorem invariantKeptByEveryStep : Obligations.InvariantKeptByEveryStep := by
  intro s t hs h
  obtain ⟨ht, hrst, released, -⟩ := step_cases h
  obtain ⟨hb, hheld⟩ := blockAfter_blockInv hs released
  rw [ht]
  exact setEnv_blockInv hb (hrst ▸ hheld)

/-- A write of a register leaves CHAIN alone, and keeps KEY and CHAIN_VALID or closes the message. -/
theorem writeReg_closes_or_keeps (s : State) (r : Reg) (v : Word) :
    (writeReg r v s).chainValid = false ∨
      ((writeReg r v s).key = s.key ∧ (writeReg r v s).chainValid = s.chainValid ∧
        (writeReg r v s).chain = s.chain) := by
  cases r with
  | key k => cases hp : s.pending <;> simp [hp]
  | cmd | status | ien | iv _ | din _ | dout _ | reserved => simp

/-- A pending command that reads RK was accepted with KEY_VALID = 1, so its cipher is AES under KEY
(10_state.md R39). -/
theorem cipher_eq_aes_of_pending (hs : BlockInv s) {i : Instr} (hp : s.pending = some i) (hi : needsKey i = true)
    (x : Block) : cipher s.rk x = aes s.key x := by
  obtain ⟨-, hk, -⟩ := (checkDecoded_eq_none s).1 (hs.pendingAccepted i hp).1
  rw [aes, hs.keyCached (hk hi)]

/-- Settles O10: by the kind of step, and for a completion by its command. -/
theorem openMessageChainAdvances : Obligations.OpenMessageChainAdvances := by
  intro s t iv0 j hs ⟨hv, hc⟩ h
  rcases step_block_cases h with ⟨r, v, hw, e, rfl⟩ | ⟨i, ha, hp, e, rfl⟩ | ⟨ha, e, rfl⟩ | ⟨-, hn, -, e, rfl⟩
  · rcases writeReg_closes_or_keeps s r v with hclosed | ⟨hkey, hvalid, hchain⟩
    · exact .inl hclosed
    · refine .inr (.inr (.inr ⟨hkey, hw.not_complete _, hvalid.trans hv, ?_⟩))
      simp [hkey, hchain, hc]
  · cases i with
    | ofbInit => exact .inr (.inl ⟨ha, rfl, rfl, rfl⟩)
    | ofbBlock =>
      refine .inr (.inr (.inl ⟨rfl, ha, hv, ?_⟩))
      change cipher s.rk s.chain = aes s.key (chainAfter (aes s.key) j iv0)
      rw [cipher_eq_aes_of_pending hs hp rfl, hc]
    | ofbFinal _ | clear => exact .inl rfl
    | nop | keyexp | enc => exact .inr (.inr (.inr ⟨rfl, by simp [ha], hv, hc⟩))
  · exact .inl rfl
  · exact .inr (.inr (.inr ⟨rfl, hn _, hv, hc⟩))

end Sys2Proof.Machine
end

section
/-! Proofs: which step changes which register (O22 to O30): each clause by the kind of step, each frame by the register
that is written and the command that completes. -/

namespace Sys2Proof.Machine

/-- Settles O22: only a CMD write and reset touch CMD_LAST. -/
theorem cmdLastChangesOnAcceptance : Obligations.CmdLastChangesOnAcceptance := by
  refine ⟨fun _ => rfl, fun s t h => ⟨fun v hw => ?_, fun ha => ?_, fun hn hr => ?_⟩⟩
  · obtain ⟨e, rfl⟩ := step_of_writes h hw
    simp
  · obtain ⟨e, rfl⟩ := step_of_assertReset h ha
    rfl
  · rcases step_block_cases h with ⟨r, v, hw, e, rfl⟩ | ⟨i, -, -, e, rfl⟩ | ⟨ha, -⟩ | ⟨-, -, -, e, rfl⟩
    · cases r with
      | cmd => exact absurd hw (hn v)
      | status | ien | key _ | iv _ | din _ | dout _ | reserved => simp
    · simp
    · exact absurd ha hr
    · rfl

/-- With nothing pending the engine has no step (10_state.md R36). -/
theorem engineStep_of_pending_none {s : State} (hp : s.pending = none) : engineStep s = .next s := by
  simp [engineStep, hp]

/-- With a command pending and `rst` released the engine's step is its completion (10_state.md R36). -/
theorem engine_of_pending {s : State} {i : Instr} (hr : s.env.rst = false) (hp : s.pending = some i) :
    engineAct s = .complete i ∧ engineStep s = exec i s := by
  simp [engineAct, engineStep, hr, hp]

/-- Settles O23: an accepted CMD write, a completion and reset set or clear PENDING, and no other step touches it. -/
theorem pendingChangesOnAcceptanceAndCompletion : Obligations.PendingChangesOnAcceptanceAndCompletion := by
  refine ⟨fun s => ⟨by simp [Option.isSome_iff_ne_none], engineStep_of_pending_none, fun hr i => engine_of_pending hr⟩,
    fun s t h => ⟨fun v hw hc => ?_, fun i ha => ?_, fun ha => ?_, fun hn hcomp hr => ?_⟩⟩
  · obtain ⟨e, rfl⟩ := step_of_writes h hw
    obtain ⟨-, i, hd, -⟩ := (checkCmd_eq_none s).1 hc
    exact ⟨i, hd, by simp [hc, decode?_eq_some.2 hd]⟩
  · obtain ⟨hp, e, rfl⟩ := step_of_complete h ha
    exact ⟨hp, by simp⟩
  · obtain ⟨e, rfl⟩ := step_of_assertReset h ha
    rfl
  · rcases step_block_cases h with ⟨r, v, hw, e, rfl⟩ | ⟨i, ha, -⟩ | ⟨ha, -⟩ | ⟨-, -, -, e, rfl⟩
    · cases r with
      | cmd => simp [hn v hw]
      | status | ien | key _ | iv _ | din _ | dout _ | reserved => simp
    · exact absurd ha (hcomp i)
    · exact absurd ha hr
    · rfl

/-- A write of a register leaves DONE = 1 only where it was 1, and then leaves PENDING (10_state.md R23). -/
theorem writeReg_done_imp {s : State} {r : Reg} {v : Word} (h : (writeReg r v s).done = true) :
    s.done = true ∧ (writeReg r v s).pending = s.pending := by
  cases r with
  | cmd => cases hc : checkCmd v s <;> simp_all
  | status => simp_all
  | ien | key _ | iv _ | din _ | dout _ | reserved => simpa using h

/-- Settles O24: acceptance, a completion, a STATUS write and reset set or clear DONE, and no other step touches it. -/
theorem doneChanges : Obligations.DoneChanges := by
  refine fun s t h => ⟨fun v hw => ?_, fun i ha => ?_, fun v hw => ?_, fun ha => ?_, fun hs ht => ?_,
    fun hn hcomp hr => ?_⟩
  · obtain ⟨e, rfl⟩ := step_of_writes h hw
    simp
  · obtain ⟨-, e, rfl⟩ := step_of_complete h ha
    simp
  · obtain ⟨e, rfl⟩ := step_of_writes h hw
    simp
  · obtain ⟨e, rfl⟩ := step_of_assertReset h ha
    rfl
  · rcases step_block_cases h with ⟨r, v, -, e, rfl⟩ | ⟨i, -, -, e, rfl⟩ | ⟨-, e, rfl⟩ | ⟨-, -, -, e, rfl⟩
    · obtain ⟨hd, hp⟩ := writeReg_done_imp ht
      simpa [hp] using hs hd
    · simp
    · rfl
    · exact hs ht
  · rcases step_block_cases h with ⟨r, v, hw, e, rfl⟩ | ⟨i, ha, -⟩ | ⟨ha, -⟩ | ⟨-, -, -, e, rfl⟩
    · cases r with
      | cmd => exact absurd hw (hn v).1
      | status => exact absurd hw (hn v).2
      | ien | key _ | iv _ | din _ | dout _ | reserved => simp
    · exact absurd ha (hcomp i)
    · exact absurd ha hr
    · rfl

/-- Settles O25: completion of KEYEXP sets KEY_VALID, a KEY write, CLEAR and reset clear it, and no other step touches
it. -/
theorem keyValidChanges : Obligations.KeyValidChanges := by
  refine fun s t h => ⟨fun ha => ?_, fun ha => ?_, fun k v hw => ?_, fun hexp hclear hr hn => ?_⟩
  · obtain ⟨-, e, rfl⟩ := step_of_complete h ha
    rfl
  · rcases ha with ha | ha
    · obtain ⟨-, e, rfl⟩ := step_of_complete h ha
      rfl
    · obtain ⟨e, rfl⟩ := step_of_assertReset h ha
      rfl
  · obtain ⟨e, rfl⟩ := step_of_writes h hw
    simp
  · rcases step_block_cases h with ⟨r, v, hw, e, rfl⟩ | ⟨i, ha, -, e, rfl⟩ | ⟨ha, -⟩ | ⟨-, -, -, e, rfl⟩
    · cases r with
      | key k => exact absurd hw (hn k v)
      | cmd | status | ien | iv _ | din _ | dout _ | reserved => simp
    · cases i with
      | keyexp => exact absurd ha hexp
      | clear => exact absurd ha hclear
      | nop | enc | ofbInit | ofbBlock | ofbFinal _ => rfl
    · exact absurd ha hr
    · rfl

/-- Settles O26: completion of OFB_INIT sets CHAIN_VALID, OFB_FINAL, a KEY write, CLEAR and reset clear it, and no other
step touches it. -/
theorem chainValidChanges : Obligations.ChainValidChanges := by
  refine fun s t h => ⟨fun ha => ?_, fun ha => ?_, fun k v hw => ?_, fun hinit hfinal hclear hr hn => ?_⟩
  · obtain ⟨-, e, rfl⟩ := step_of_complete h ha
    rfl
  · rcases ha with ⟨len, ha⟩ | ha | ha
    · obtain ⟨-, e, rfl⟩ := step_of_complete h ha
      rfl
    · obtain ⟨-, e, rfl⟩ := step_of_complete h ha
      rfl
    · obtain ⟨e, rfl⟩ := step_of_assertReset h ha
      rfl
  · obtain ⟨e, rfl⟩ := step_of_writes h hw
    simp
  · rcases step_block_cases h with ⟨r, v, hw, e, rfl⟩ | ⟨i, ha, -, e, rfl⟩ | ⟨ha, -⟩ | ⟨-, -, -, e, rfl⟩
    · cases r with
      | key k => exact absurd hw (hn k v)
      | cmd | status | ien | iv _ | din _ | dout _ | reserved => simp
    · cases i with
      | ofbInit => exact absurd ha hinit
      | ofbFinal len => exact absurd ha (hfinal len)
      | clear => exact absurd ha hclear
      | nop | keyexp | enc | ofbBlock => rfl
    · exact absurd ha hr
    · rfl

/-- An operand write is rejected with BUSY while a command is pending (60_exceptions.md R122). -/
theorem checkOperandWrite_of_busy {s : State} (hb : s.busy = true) : checkOperandWrite s = some .busy := by
  rw [checkOperandWrite, if_pos hb]

/-- An operand write is accepted while nothing is pending (60_exceptions.md R122). -/
theorem checkOperandWrite_of_idle {s : State} (hb : s.busy = false) : checkOperandWrite s = none := by
  rw [checkOperandWrite, hb, if_neg Bool.false_ne_true]

/-- ERR = 0 iff ERR_CODE = 0 after a write that may raise an error, if before it (10_state.md R26). -/
theorem errCodeAfter_eq_zero_iff {s : State} (hs : s.err = false ↔ s.errCode = 0x0) (e : Option HostError) :
    (s.err || e.isSome) = false ↔ errCodeAfter e s = 0x0 := by
  cases e with
  | none => simpa [errCodeAfter] using hs
  | some e =>
    have := errorCode_ne_zero e
    cases he : s.err <;> simp_all [errCodeAfter]

/-- Every write of a register keeps ERR = 0 iff ERR_CODE = 0 (10_state.md R26). -/
theorem writeReg_errIff {s : State} (hs : s.err = false ↔ s.errCode = 0x0) (r : Reg) (v : Word) :
    (writeReg r v s).err = false ↔ (writeReg r v s).errCode = 0x0 := by
  cases r with
  | cmd => simpa using errCodeAfter_eq_zero_iff hs (checkCmd v s)
  | key _ | iv _ | din _ => simpa using errCodeAfter_eq_zero_iff hs (checkOperandWrite s)
  | status =>
    rw [writeReg_status]
    cases v.getLsbD 4 <;> simp [hs]
  | ien | dout _ | reserved => simpa using hs

/-- A write of KEY, IV or DIN while a command is pending records BUSY (60_exceptions.md R124). -/
theorem step_of_busy_operand_write {s t : State} (h : step s = .next t) {k : Fin 4} {v : Word}
    (hw : Writes s (.key k) v ∨ Writes s (.iv k) v ∨ Writes s (.din k) v) (hb : s.busy = true) :
    t.err = true ∧ t.errCode = if s.err then s.errCode else errorCode .busy := by
  rcases hw with hw | hw | hw <;> obtain ⟨e, rfl⟩ := step_of_writes h hw <;>
    simp [checkOperandWrite_of_busy hb, errCodeAfter]

/-- Settles O27: a rejected write records its error, a STATUS write and reset clear it, and no other step touches it. -/
theorem errorBitsChange : Obligations.ErrorBitsChange := by
  refine ⟨⟨rfl, rfl, rfl, rfl, rfl⟩, fun s t h => ⟨fun v err hw hc => ?_, fun k v hw hb => ?_, fun v hw hv => ?_,
    fun ha => ?_, fun hs => ?_, fun hcmd hop hstatus hr => ?_⟩⟩
  · obtain ⟨e, rfl⟩ := step_of_writes h hw
    simp [hc, errCodeAfter]
  · exact step_of_busy_operand_write h hw hb
  · obtain ⟨e, rfl⟩ := step_of_writes h hw
    simp [hv]
  · obtain ⟨e, rfl⟩ := step_of_assertReset h ha
    exact ⟨rfl, rfl⟩
  · rcases step_block_cases h with ⟨r, v, -, e, rfl⟩ | ⟨i, -, -, e, rfl⟩ | ⟨-, e, rfl⟩ | ⟨-, -, -, e, rfl⟩
    · exact writeReg_errIff hs r v
    · simpa using hs
    · exact ⟨fun _ => rfl, fun _ => rfl⟩
    · exact hs
  · rcases step_block_cases h with ⟨r, v, hw, e, rfl⟩ | ⟨i, -, -, e, rfl⟩ | ⟨ha, -⟩ | ⟨-, -, -, e, rfl⟩
    · cases r with
      | cmd => simp [hcmd v hw, errCodeAfter]
      | status =>
        rw [writeReg_status, hstatus v hw]
        simp
      | key k => simp [checkOperandWrite_of_idle (hop k v (.inl hw)), errCodeAfter]
      | iv k => simp [checkOperandWrite_of_idle (hop k v (.inr (.inl hw))), errCodeAfter]
      | din k => simp [checkOperandWrite_of_idle (hop k v (.inr (.inr hw))), errCodeAfter]
      | ien | dout _ | reserved => simp
    · simp
    · exact absurd ha hr
    · exact ⟨rfl, rfl⟩

/-- The bits of IEN as it reads (10_state.md R27). -/
theorem ienWord_bits (s : State) : (ienWord s).getLsbD 0 = s.doneIe ∧ (ienWord s).getLsbD 1 = s.errIe ∧
    (ienWord s).extractLsb' 2 30 = 0 := by
  unfold ienWord
  cases s.doneIe <;> cases s.errIe <;> decide

/-- Settles O28: an IEN write and reset set both enables, and no other step touches them. -/
theorem interruptEnables : Obligations.InterruptEnables := by
  refine ⟨fun s hd he => by simp [irq, hd, he], ienWord_bits, fun s t h => ⟨fun v hw => ?_, fun ha => ?_,
    fun hn hr => ?_⟩⟩
  · obtain ⟨e, rfl⟩ := step_of_writes h hw
    simp
  · obtain ⟨e, rfl⟩ := step_of_assertReset h ha
    exact ⟨rfl, rfl⟩
  · rcases step_block_cases h with ⟨r, v, hw, e, rfl⟩ | ⟨i, -, -, e, rfl⟩ | ⟨ha, -⟩ | ⟨-, -, -, e, rfl⟩
    · cases r with
      | ien => exact absurd hw (hn v)
      | cmd | status | key _ | iv _ | din _ | dout _ | reserved => simp
    · simp
    · exact absurd ha hr
    · exact ⟨rfl, rfl⟩

/-- A write of a register leaves each of KEY, IV and DIN that it does not write. -/
theorem writeReg_operands_frame (s : State) (r : Reg) (v : Word) :
    ((∀ k, r ≠ .key k) → (writeReg r v s).key = s.key) ∧ ((∀ k, r ≠ .iv k) → (writeReg r v s).iv = s.iv) ∧
      ((∀ k, r ≠ .din k) → (writeReg r v s).din = s.din) := by
  cases r <;> simp

/-- No command's completion but CLEAR's writes KEY, IV or DIN (10_state.md R28 to R30, 43_ofb.md R102). -/
theorem completed_operands {i : Instr} (hi : i ≠ .clear) (s : State) :
    (completed i s).key = s.key ∧ (completed i s).iv = s.iv ∧ (completed i s).din = s.din := by
  cases i with
  | clear => exact absurd rfl hi
  | nop | keyexp | enc | ofbInit | ofbBlock | ofbFinal _ => exact ⟨rfl, rfl, rfl⟩

/-- Settles O29: a write of KEY, IV or DIN replaces its bytes, CLEAR and reset zero all three, and no other step touches
them. -/
theorem operandRegistersChange : Obligations.OperandRegistersChange := by
  refine fun s t h => ⟨fun k v hw => ?_, fun k v hw => ?_, fun k v hw => ?_, fun ha => ?_, fun hclear hr => ?_⟩
  · obtain ⟨e, rfl⟩ := step_of_writes h hw
    simp
  · obtain ⟨e, rfl⟩ := step_of_writes h hw
    simp
  · obtain ⟨e, rfl⟩ := step_of_writes h hw
    simp
  · rcases ha with ha | ha
    · obtain ⟨-, e, rfl⟩ := step_of_complete h ha
      exact ⟨rfl, rfl, rfl⟩
    · obtain ⟨e, rfl⟩ := step_of_assertReset h ha
      exact ⟨rfl, rfl, rfl⟩
  · rcases step_block_cases h with ⟨r, v, hw, e, rfl⟩ | ⟨i, ha, -, e, rfl⟩ | ⟨ha, -⟩ | ⟨-, -, -, e, rfl⟩
    · obtain ⟨hkey, hiv, hdin⟩ := writeReg_operands_frame s r v
      exact ⟨fun hn => hkey fun k hr => hn k v (hr ▸ hw), fun hn => hiv fun k hr => hn k v (hr ▸ hw),
        fun hn => hdin fun k hr => hn k v (hr ▸ hw)⟩
    · obtain ⟨hkey, hiv, hdin⟩ := completed_operands (fun hi => hclear (hi ▸ ha)) s
      exact ⟨fun _ => hkey, fun _ => hiv, fun _ => hdin⟩
    · exact absurd ha hr
    · exact ⟨fun _ => rfl, fun _ => rfl, fun _ => rfl⟩

/-- No write of a register changes DOUT, RK, STATE, CHAIN or KS (10_state.md R31 to R35). -/
theorem writeReg_results (s : State) (r : Reg) (v : Word) :
    (writeReg r v s).dout = s.dout ∧ (writeReg r v s).rk = s.rk ∧
      (writeReg r v s).cipherState = s.cipherState ∧ (writeReg r v s).chain = s.chain ∧
      (writeReg r v s).ks = s.ks := by
  cases r <;> simp

/-- Settles O30: a step that is no completion leaves the five registers, and each command writes its own. -/
theorem resultRegistersChangeAtCompletion : Obligations.ResultRegistersChangeAtCompletion := by
  intro s t h hr hclear
  rcases step_block_cases h with ⟨r, v, -, e, rfl⟩ | ⟨i, ha, -, e, rfl⟩ | ⟨ha, -⟩ | ⟨-, -, -, e, rfl⟩
  · obtain ⟨hdout, hrk, hstate, hchain, hks⟩ := writeReg_results s r v
    exact ⟨fun hd => absurd hdout hd, fun hd => absurd hrk hd, fun hd => absurd hstate hd,
      fun hd => absurd hchain hd, fun hd => absurd hks hd⟩
  · cases i with
    | clear => exact absurd ha hclear
    | nop | keyexp | enc | ofbInit | ofbBlock | ofbFinal _ =>
      simp [ha, completed, exec, execNop, execKeyexp, execEnc, execOfbInit, execOfbBlock, execOfbFinal]
  · exact absurd ha hr
  · simp

end Sys2Proof.Machine
end

section
/-! Proofs: the bits of STATUS (O12), and that a step runs what is due (O39). -/

namespace Sys2Proof.Machine

/-- Bit `n` of STATUS: the five flags, three zeros, then ERR_CODE (10_state.md R21). -/
theorem statusWord_getLsbD (s : State) (n : Nat) : (statusWord s).getLsbD n =
    match n with
    | 0 => s.busy
    | 1 => s.done
    | 2 => s.keyValid
    | 3 => s.chainValid
    | 4 => s.err
    | 5 | 6 | 7 => false
    | n + 8 => s.errCode.getLsbD n := by
  simp only [statusWord, BitVec.getLsbD_setWidth, BitVec.getLsbD_append, BitVec.getLsbD_ofBool]
  match n with
  | 0 | 1 | 2 | 3 | 4 | 5 | 6 | 7 => simp
  | n + 8 =>
    by_cases hn : n < 4
    · simp [show n + 8 < 32 by omega]
    · simp [BitVec.getLsbD_of_ge s.errCode n (by omega)]

/-- Settles O12: each clause reads its bits off the layout. -/
theorem statusBitLayout : Obligations.StatusBitLayout := by
  refine fun s => ⟨statusWord_getLsbD s 0, statusWord_getLsbD s 1, statusWord_getLsbD s 2, statusWord_getLsbD s 3,
    statusWord_getLsbD s 4, ?_, ?_, ?_⟩ <;> refine BitVec.eq_of_getLsbD_eq fun n hn => ?_ <;>
    rw [BitVec.getLsbD_extractLsb', statusWord_getLsbD]
  · match n with
    | 0 | 1 | 2 => simp
  · rw [Nat.add_comm]
    simp [hn]
  · simp [hn, show 12 + n = n + 4 + 8 by omega]

/-- A step takes the next event off the list and runs it (log 3). -/
theorem step_of_event {s : State} {e : Event} {rest : List Event} (h : s.env.script = e :: rest) :
    step s = runEvent e (setScript rest s) := by
  simp [step, nextStep, h]

/-- With no event listed and `rst` released a pending command completes first (log 3). -/
theorem step_of_no_event {s : State} {i : Instr} (hr : s.env.rst = false) (hp : s.pending = some i)
    (h : s.env.script = []) : step s = engineStep s := by
  simp [step, nextStep, h, defaultStep, hr, hp]

/-- The step after a command is placed is that command's meaning, with the engine's event taken off (log 4). -/
theorem step_placeCommand (v : Word) (i : Instr) (s : State) :
    step (placeCommand v i s) = exec i (setScript s.env.script (placeCommand v i s)) := by
  rw [step_of_event (s := placeCommand v i s) rfl]
  exact (engine_of_pending (s := setScript s.env.script (placeCommand v i s)) rfl rfl).2

/-- Settles O39: the next event, or with none the engine, acts on the state with that event taken off. -/
theorem stepRunsTheDueAct : Obligations.StepRunsTheDueAct := by
  refine ⟨fun s i rest hr hp hs => ?_, fun s i hr hp hs => ?_, fun s rest hp hs => ?_, fun s a rest hr hs => ?_,
    fun s w i hd => ?_⟩
  · rw [step_of_event hs]
    exact (engine_of_pending (s := setScript rest s) hr hp).2
  · rw [step_of_no_event hr hp hs]
    exact (engine_of_pending hr hp).2
  · rw [step_of_event hs]
    exact engineStep_of_pending_none (s := setScript rest s) hp
  · rw [step_of_event hs]
    exact busStep_released (setScript rest s) a hr
  · have hw : BitVec.ofNat 32 (w % 2 ^ 32) = BitVec.ofNat 32 w := BitVec.eq_of_toNat_eq (by simp)
    refine ⟨setScript s.env.script (placeCommand (BitVec.ofNat 32 w) i s), rfl, rfl, ?_, rfl⟩
    rw [State.withFetchWord, hd, hw]
    exact step_placeCommand _ i s

end Sys2Proof.Machine
end

section
/-! Proofs: the register window (20_memory.md): the packing of 16-byte registers (O14), reads (O11), ignored writes
(O18), the addresses of the window (O58) and the responses to writes (O59). -/

namespace Sys2Proof

/-- Byte `n` of an unpacked register value (20_memory.md R46). -/
theorem Quad.get_unpack (v : Word) (n : Fin 4) : (Quad.unpack v).get n = v.extractLsb' (24 - 8 * n.val) 8 := by
  fin_cases n <;> rfl

/-- The bits of a packed word that hold its byte `n` (20_memory.md R46). -/
theorem Quad.extractLsb'_pack (q : Quad) (n : Fin 4) : q.pack.extractLsb' (24 - 8 * n.val) 8 = q.get n := by
  rw [← Quad.get_unpack, Quad.unpack_pack]

/-- Settles O14: byte `n` of a block is byte `n mod 4` of its column `n div 4`, which `pack` and `unpack` read and
replace. -/
theorem packingIsBigEndian : Obligations.PackingIsBigEndian := by
  refine fun b v k n => ⟨fun hk => ?_, ?_, by simp⟩
  · rw [pack, show k = ⟨n.val / 4, by omega⟩ from Fin.ext hk.symm]
    exact Quad.extractLsb'_pack _ ⟨n.val % 4, by omega⟩
  · simp only [Block.byte, Block.cell, unpack, Block.column_setColumn, Fin.ext_iff]
    split
    · exact Quad.get_unpack v _
    · rfl

end Sys2Proof

namespace Sys2Proof.Machine

/-- The reserved offsets of the window (20_memory.md R42). -/
theorem regAt_reserved : ∀ off : BitVec 7, off.toNat / 4 = 3 ∨ 0x50 ≤ off.toNat → regAt off = .reserved := by
  decide

/-- From 0x40 on, the window holds DOUT and reserved offsets (20_memory.md R42). -/
theorem regAt_of_le : ∀ off : BitVec 7, 0x40 ≤ off.toNat → (∃ k, regAt off = .dout k) ∨ regAt off = .reserved := by
  decide

/-- A reserved offset reads as zero (20_memory.md R44). -/
theorem busRead_reserved {off : BitVec 7} (h : off.toNat / 4 = 3 ∨ 0x50 ≤ off.toNat) (s : State) :
    busRead off s = 0x00000000 := by
  rw [busRead, regAt_reserved off h, readReg]

/-- No read changes state (20_memory.md R45). -/
theorem hostAccess_read_state (off : BitVec 7) (size : AccessSize) (s : State) :
    (hostAccess ⟨.read, off, size⟩ s).2 = s := by
  unfold hostAccess
  split <;> rfl

/-- Settles O11: each offset is that of its row of the map, which `readReg` reads. -/
theorem readsReturnTheRegisterMap : Obligations.ReadsReturnTheRegisterMap := by
  refine fun s => ⟨rfl, rfl, rfl, rfl, fun k => ⟨?_, ?_, ?_, ?_⟩, fun off h => busRead_reserved (.inr h) s,
    fun off size => hostAccess_read_state off size s⟩ <;> rw [busRead]
  · rw [regAt_key, readReg]
  · rw [regAt_iv, readReg]
  · rw [regAt_din, readReg]
  · rw [regAt_dout, readReg]

/-- Settles O18: such an offset is one of DOUT or reserved, and neither's write does anything. -/
theorem ignoredWrites : Obligations.IgnoredWrites := by
  intro off v s h
  have hreg : (∃ k, regAt off = .dout k) ∨ regAt off = .reserved :=
    h.elim (fun h3 => .inr (regAt_reserved off (.inl h3))) (regAt_of_le off)
  rcases hreg with ⟨k, hk⟩ | hr
  · rw [busWrite, hk, writeReg_dout]
  · rw [busWrite, hr, writeReg_reserved]

/-- The platform routes the 0x80 addresses from BASE on, and no other (20_memory.md R41). -/
theorem accessAt_eq_some {base addr : Nat} {kind : AccessKind} {size : AccessSize} {a : Access} :
    accessAt base addr kind size = some a ↔
      (base ≤ addr ∧ addr < base + 0x80) ∧ ⟨kind, offsetOfAddress addr, size⟩ = a := by
  simp [accessAt, routed]

/-- Settles O58: the offset is the address modulo 0x80, and a routed address is less than 0x80 beyond BASE. -/
theorem windowAddressDecoding : Obligations.WindowAddressDecoding := by
  intro base addr kind size
  simp only [accessAt_eq_some]
  refine ⟨⟨fun ⟨_, hr, _⟩ => hr, fun hr => ⟨_, hr, rfl⟩⟩, ?_⟩
  rintro a ⟨⟨hlo, hhi⟩, rfl⟩
  have hoff : (offsetOfAddress addr).toNat = addr % 0x80 := BitVec.toNat_ofNat addr 7
  exact ⟨rfl, rfl, hoff, fun hb => by rw [hoff]; omega⟩

/-- Settles O59: by whether the block accepts the access. -/
theorem writeResponses : Obligations.WriteResponses := by
  intro v off size s
  simp only [hostAccess, wellFormed_iff]
  split <;> rfl

end Sys2Proof.Machine
end

section
/-! Proofs: accesses that find a command pending leave all that its completion reads and writes, so its results are
those it would give at once (O41). -/

namespace Sys2Proof.Machine

variable {s t : State} {i : Instr}

/-- What the engine's completion reads and writes, and CMD_LAST: the state with DONE, ERR, ERR_CODE, IEN and the world
outside forgotten (44_commands.md R107, R108). -/
def engineView (s : State) : State :=
  { s with done := false, err := false, errCode := 0x0, doneIe := false, errIe := false, env := Env.initial }

/-- The engine sees the same of two states that agree on the registers it uses, CMD_LAST and PENDING. -/
theorem engineView_eq_iff : engineView t = engineView s ↔
    t.cmdLast = s.cmdLast ∧ t.keyValid = s.keyValid ∧ t.chainValid = s.chainValid ∧ t.key = s.key ∧ t.iv = s.iv ∧
      t.din = s.din ∧ t.dout = s.dout ∧ t.rk = s.rk ∧ t.cipherState = s.cipherState ∧ t.chain = s.chain ∧
      t.ks = s.ks ∧ t.pending = s.pending := by
  simp [engineView]

/-- States of which the engine sees the same have the same command pending. -/
theorem pending_of_engineView (h : engineView t = engineView s) : t.pending = s.pending := by
  simp [engineView_eq_iff.1 h]

/-- A completion's results depend on what the engine sees only. -/
theorem engineView_completed (i : Instr) (h : engineView t = engineView s) :
    engineView (completed i t) = engineView (completed i s) := by
  have hview : ∀ u, engineView (completed i u) = engineView (completed i (engineView u)) := fun u => by
    cases i <;> rfl
  rw [hview t, h, ← hview s]

/-- While a command is pending no write of a register changes what the engine sees (20_memory.md R55). -/
theorem engineView_writeReg (hp : s.pending = some i) (r : Reg) (v : Word) :
    engineView (writeReg r v s) = engineView s := by
  have hcmd : checkCmd v s = some .busy := by simp [checkCmd, hp]
  cases r with
  | cmd => simp [engineView, hcmd]
  | status | ien | dout _ | reserved => simp [engineView]
  | key _ | iv _ | din _ => simp [engineView, hp]

/-- An access writes one register or leaves the block. -/
theorem hostAccess_writes_or_keeps (a : Access) (s : State) :
    (∃ r v, (hostAccess a s).2 = writeReg r v s) ∨ (hostAccess a s).2 = s := by
  obtain ⟨kind, off, size⟩ := a
  unfold hostAccess
  split
  · cases kind with
    | read => exact .inr rfl
    | write v => exact .inl ⟨regAt off, v, rfl⟩
  · exact .inr rfl

/-- While a command is pending no access changes what the engine sees (20_memory.md R55). -/
theorem engineView_hostAccess (hp : s.pending = some i) (a : Access) :
    engineView (hostAccess a s).2 = engineView s := by
  rcases hostAccess_writes_or_keeps a s with ⟨r, v, h⟩ | h <;> rw [h]
  exact engineView_writeReg hp r v

/-- Accesses that find a command pending are all answered, and none changes what the engine sees. -/
theorem runScript_accesses_of_pending (as : List Access) (hp : s.pending = some i) (hr : s.env.rst = false) :
    ∃ t, runScript (as.map .bus) s = .next t ∧ t.env.rst = false ∧ engineView t = engineView s := by
  induction as generalizing s with
  | nil => exact ⟨setScript [] s, rfl, hr, rfl⟩
  | cons a as ih =>
    have hview : engineView (setResponse (hostAccess a s).1 (hostAccess a s).2) = engineView s :=
      engineView_hostAccess hp a
    obtain ⟨t, hrun, hrst, ht⟩ := ih ((pending_of_engineView hview).trans hp) (by simpa using hr)
    refine ⟨t, ?_, hrst, ht.trans hview⟩
    rw [List.map_cons, runScript_cons, runEvent, busStep_released s a hr]
    exact hrun

/-- Settles O41: the engine completes a command that sees what it saw before the accesses. -/
theorem pendingResultsUnaffectedByTheHost : Obligations.PendingResultsUnaffectedByTheHost := by
  intro s i as hp hr
  obtain ⟨t, hrun, hrst, hview⟩ := runScript_accesses_of_pending as hp hr
  obtain ⟨hcmd, hkv, hcv, hkey, hiv, hdin, hdout, hrk, hstate, hchain, hks, -⟩ :=
    engineView_eq_iff.1 (engineView_completed i hview)
  refine ⟨setScript [] (completed i t), completed i s, ?_, exec_eq s i, completed_pending t i, completed_done t i,
    hcmd.trans (completed_cmdLast s i), hkv, hcv, hkey, hiv, hdin, hdout, hrk, hstate, hchain, hks⟩
  rw [runScript_append, hrun]
  exact runScript_engine t hrst ((pending_of_engineView hview).trans hp) []

end Sys2Proof.Machine
end

section
/-! Proofs: decoding and encoding (30_encoding.md R57 to R61). A word decodes to a command exactly when it is that
command's word (O1 to O3), so the tests of R60 and the rows of the opcode map both say which word it is (O4). -/

namespace Sys2Proof

/-- The opcode map at the opcode and the LEN of a command (R58). -/
theorem commandOf_opcode_len (i : Instr) : commandOf i.opcode i.len = .ok i := by
  cases i <;> rfl

/-- The opcodes of the commands are 0x0 to 0x6 (R58). -/
theorem Instr.opcode_lt (i : Instr) : i.opcode.toNat < 0x7 := by
  cases i <;> simp [opcode]

/-- Only OFB_FINAL has a LEN other than 0 (R57, R59). -/
theorem Instr.len_eq_zero {i : Instr} (h : i.opcode ≠ 0x5) : i.len = 0 := by
  cases i with
  | ofbFinal len => exact absurd rfl h
  | nop | keyexp | enc | ofbInit | ofbBlock | clear => rfl

/-- The word of a command passes every test of R60. -/
theorem decode_encode (i : Instr) : decode (encode i) = .ok i := by
  have hlen : ¬(i.opcode ≠ 0x5 ∧ i.len ≠ 0) := fun ⟨hop, hne⟩ => hne (Instr.len_eq_zero hop)
  have hop : ¬0x7 ≤ i.opcode.toNat := Nat.not_le.2 i.opcode_lt
  rw [decode, encode, opField_cmdWord, lenField_cmdWord, reservedLow_cmdWord, reservedHigh_cmdWord,
    if_neg (by simp), if_neg hop, if_neg hlen, commandOf_opcode_len]

/-- The words that decode to a command: exactly its own word (R57, R60). -/
theorem decode_eq_ok_iff {w : Word} {i : Instr} : decode w = .ok i ↔ encode i = w := by
  refine ⟨fun h => ?_, fun h => h ▸ decode_encode i⟩
  obtain ⟨hhigh, hlow, hop, hlen⟩ := decode_ok h
  rw [encode, hop, hlen, cmdWord_fields hlow hhigh]

/-- Settles O2: the fields of the word are the command's opcode and LEN, which pass the tests. -/
theorem decodeOfEncodeIsTheCommand : Obligations.DecodeOfEncodeIsTheCommand := decode_encode

/-- Settles O3: the fields of a word that decodes are the command's, and the other bits are 0. -/
theorem encodeOfDecodeIsTheWord : Obligations.EncodeOfDecodeIsTheWord := fun _ _ => decode_eq_ok_iff.1

/-- Settles O1: the words of the commands are those that `encode` builds, and each of the five illegal words fails one
test. -/
theorem commandWordsDecode : Obligations.CommandWordsDecode :=
  ⟨decode_encode .nop, decode_encode .keyexp, decode_encode .enc, decode_encode .ofbInit, decode_encode .ofbBlock,
    decode_encode (.ofbFinal 0), decode_encode (.ofbFinal 1), decode_encode (.ofbFinal 15), decode_encode .clear,
    rfl, rfl, rfl, rfl, rfl⟩

/-- The opcode map has a command for every opcode below 0x7 (R58). -/
theorem commandOf_of_lt {op : BitVec 4} (h : op.toNat < 0x7) (len : BitVec 4) : ∃ i, commandOf op len = .ok i := by
  unfold commandOf
  interval_cases op.toNat <;> exact ⟨_, rfl⟩

/-- The illegal words are those that fail one of the tests of R60: what passes them all is in the opcode map. -/
theorem decode_eq_error_iff (w : Word) : (∃ e, decode w = .error e) ↔
    (reservedHigh w ≠ 0 ∨ reservedLow w ≠ 0) ∨ 0x7 ≤ (opField w).toNat ∨ (opField w ≠ 0x5 ∧ lenField w ≠ 0) := by
  unfold decode
  split
  next hres => exact iff_of_true ⟨_, rfl⟩ (.inl hres)
  next hres =>
    split
    next hop => exact iff_of_true ⟨_, rfl⟩ (.inr (.inl hop))
    next hop =>
      split
      next hlen => exact iff_of_true ⟨_, rfl⟩ (.inr (.inr hlen))
      next hlen =>
        obtain ⟨i, hi⟩ := commandOf_of_lt (Nat.not_le.1 hop) (lenField w)
        exact iff_of_false (by simp [hi]) (not_or.2 ⟨hres, not_or.2 ⟨hop, hlen⟩⟩)

/-- The match value of a row is its opcode (R58). -/
theorem Instr.rowMatch_eq (i : Instr) : i.rowMatch = i.opcode.setWidth 32 := by
  cases i <;> rfl

/-- The mask of a row leaves out LEN for OFB_FINAL, and no bit for another command (R58). -/
theorem Instr.rowMask_eq (i : Instr) : i.rowMask = if i.opcode = 0x5 then 0xFFFFF0FF else 0xFFFFFFFF := by
  cases i <;> rfl

/-- The word of a command matches the command's row (R58). -/
theorem encode_and_rowMask (i : Instr) : encode i &&& i.rowMask = i.rowMatch := by
  cases i with
  | nop => exact Laws.RowWord.nop.2
  | keyexp => exact Laws.RowWord.keyexp.2
  | enc => exact Laws.RowWord.enc.2
  | ofbInit => exact Laws.RowWord.ofbInit.2
  | ofbBlock => exact Laws.RowWord.ofbBlock.2
  | ofbFinal len => exact (Laws.RowWord.ofbFinal len).2
  | clear => exact Laws.RowWord.clear.2

/-- A word that matches the row of OFB_FINAL is that of OFB_FINAL with the word's LEN: the mask keeps all the other
fields (R58). -/
theorem encode_ofbFinal_of_match {w : Word} (h : w &&& 0xFFFFF0FF = 0x00000005) :
    encode (.ofbFinal (lenField w)) = w := by
  have field (n k : Nat) : w.extractLsb' n k &&& (0xFFFFF0FF : Word).extractLsb' n k =
      (0x00000005 : Word).extractLsb' n k := by
    rw [← BitVec.extractLsb'_and, h]
  have hop : opField w = 0x5 := (BitVec.and_allOnes (x := opField w)).symm.trans (field 0 4)
  have hlow : reservedLow w = 0 := (BitVec.and_allOnes (x := reservedLow w)).symm.trans (field 4 4)
  have hhigh : reservedHigh w = 0 := (BitVec.and_allOnes (x := reservedHigh w)).symm.trans (field 12 20)
  rw [encode, Instr.opcode, Instr.len, ← hop, cmdWord_fields hlow hhigh]

/-- A word matches a row exactly when it is the word of a command of the row's opcode (R58). -/
theorem and_rowMask_eq_iff (w : Word) (i : Instr) :
    w &&& i.rowMask = i.rowMatch ↔ ∃ j : Instr, encode j = w ∧ j.opcode = i.opcode := by
  constructor
  · intro h
    have hi := encode_and_rowMask i
    rw [i.rowMask_eq] at h hi
    by_cases hop : i.opcode = 0x5
    · rw [if_pos hop, i.rowMatch_eq, hop] at h
      exact ⟨.ofbFinal (lenField w), encode_ofbFinal_of_match h, hop.symm⟩
    · rw [if_neg hop] at h hi
      have hw : encode i &&& BitVec.allOnes 32 = w &&& BitVec.allOnes 32 := hi.trans h.symm
      exact ⟨i, by rwa [BitVec.and_allOnes, BitVec.and_allOnes] at hw, rfl⟩
  · rintro ⟨j, rfl, hop⟩
    rw [i.rowMask_eq, i.rowMatch_eq, ← hop, ← j.rowMask_eq, ← j.rowMatch_eq, encode_and_rowMask]

/-- Settles O4: by the tests in their order, and by the word a row's mask and match leave. -/
theorem decodingFollowsTheOpcodeMap : Obligations.DecodingFollowsTheOpcodeMap := by
  refine ⟨fun w => ⟨decode_eq_error_iff w, fun i h => ?_⟩, fun w i => ?_⟩
  · obtain ⟨-, -, hop, hlen⟩ := decode_ok h
    exact ⟨hop, hlen⟩
  · simp only [decode_eq_ok_iff, and_rowMask_eq_iff]

end Sys2Proof
end

section
/-! Proofs: the written form of the commands (30_encoding.md R64): it reads back, in any case of letters (O5). -/

namespace Sys2Proof

/-- The written LEN is its decimal form (R64). -/
theorem lenDigits_eq_toDigits : ∀ len : BitVec 4, lenDigits len = Nat.toDigits 10 len.toNat := by
  decide

/-- A written LEN reads back (R64). -/
theorem parseLen_lenDigits : ∀ len : BitVec 4, parseLen (lenDigits len) = some len := by
  decide

/-- A written LEN has no letters. -/
theorem lenDigits_map_upperChar : ∀ len : BitVec 4, (lenDigits len).map upperChar = lenDigits len := by
  decide

/-- After `OFB_FINAL #` a LEN is read, and no other command's mnemonic begins so (R64). -/
theorem parseCommand_ofbFinal (cs : List Char) :
    parseCommand ((Instr.ofbFinal 0).mnemonic ++ [' ', '#'] ++ cs) = (parseLen (cs.map upperChar)).map .ofbFinal := rfl

/-- A written command reads back as the command (R64). -/
theorem parseCommand_render (i : Instr) : parseCommand i.render = some i := by
  cases i with
  | ofbFinal len =>
    calc parseCommand (Instr.ofbFinal len).render
        = (parseLen ((lenDigits len).map upperChar)).map .ofbFinal := parseCommand_ofbFinal (lenDigits len)
      _ = some (.ofbFinal len) := by rw [lenDigits_map_upperChar, parseLen_lenDigits, Option.map_some]
  | nop | keyexp | enc | ofbInit | ofbBlock | clear => rfl

/-- A capital is its own capital (R64). -/
theorem upperChar_upperChar (c : Char) : upperChar (upperChar c) = upperChar c := by
  by_cases h : 97 ≤ c.toNat ∧ c.toNat ≤ 122
  · have hcap : (upperChar c).toNat = c.toNat - 32 := by
      rw [upperChar, if_pos h, Char.toNat_ofNat, if_pos (.inl (by omega))]
    rw [upperChar, if_neg (by omega)]
  · have hc : upperChar c = c := if_neg h
    rw [hc, hc]

/-- Reading a written command does not depend on the case of its letters (R64). -/
theorem parseCommand_map_upperChar (cs : List Char) : parseCommand (cs.map upperChar) = parseCommand cs := by
  have h : (cs.map upperChar).map upperChar = cs.map upperChar := by simp [upperChar_upperChar]
  rw [parseCommand, h, parseCommand]

/-- Settles O5: command by command, and by the idempotence of capitals. -/
theorem writtenCommandsParse : Obligations.WrittenCommandsParse := by
  refine ⟨⟨rfl, rfl, rfl, rfl, rfl, fun len => ?_, rfl⟩, parseCommand_render, parseCommand_map_upperChar⟩
  rw [← lenDigits_eq_toDigits]
  rfl

end Sys2Proof
end

section
/-! Proofs: what each line of a host program answers (30_encoding.md R65), one equation for each line and outcome
(O56). -/

namespace Sys2Proof.Machine

variable (s : State)

/-- No write at the port touches the environment. -/
@[simp] theorem busWrite_env (off : BitVec 7) (v : Word) : (busWrite off v s).env = s.env := writeReg_env s _ v

/-- A state has the block of itself. -/
@[simp] theorem sameBlock_refl : SameBlock s s := rfl

/-- The host agent is no part of the block. -/
@[simp] theorem sameBlock_setHost {s t : State} {h : HostAgent} : SameBlock s (setHost h t) ↔ SameBlock s t := Iff.rfl

/-- The port's last response is no part of the block. -/
@[simp] theorem sameBlock_setResponse {s t : State} {r : Response} :
    SameBlock s (setResponse r t) ↔ SameBlock s t := Iff.rfl

/-- The events still to come are no part of the block. -/
@[simp] theorem sameBlock_setScript {s t : State} {es : List Event} :
    SameBlock s (setScript es t) ↔ SameBlock s t := Iff.rfl

/-- The host agent after a read line that returned `v` into `t` (30_encoding.md R65). -/
def readInto (t : Fin 8) (v : Word) (h : HostAgent) : HostAgent :=
  { h with pc := h.pc + 1, temps := h.temps.set t.val v, results := h.results ++ [v] }

/-- The state after an accepted WR line (30_encoding.md R65). -/
def afterWr (off : BitVec 7) (v : Word) : State :=
  setHost (nextLine s.env.host) (setResponse ⟨.okay, 0x00000000⟩ (busWrite off v s))

/-- The state after an accepted RD line (30_encoding.md R65). -/
def afterRd (off : BitVec 7) (t : Fin 8) : State :=
  setHost (readInto t (busRead off s) s.env.host) (setResponse ⟨.okay, busRead off s⟩ s)

/-- A branch whose label is defined continues there if taken, else at the next line (30_encoding.md R65). -/
theorem branch_of_defined {name n : Nat} (h : labelIndex s.env.host.program name = some n) (taken : Bool) :
    branch taken name s =
      .next (setHost { s.env.host with pc := if taken then n else s.env.host.pc + 1 } s) := by
  cases taken <;> simp [branch, h, nextLine]

/-- A taken branch to a label that no line defines stops the program (log 7). -/
theorem branch_of_undefined {name : Nat} (h : labelIndex s.env.host.program name = none) :
    branch true name s = .fault .unknownLabel := by
  simp [branch, h]

theorem runLine_bnz_of_defined {name n : Nat} (h : labelIndex s.env.host.program name = some n) (t : Fin 8)
    (mask : Word) : runLine (.bnz t mask name) s = .next (setHost { s.env.host with
      pc := if s.env.host.temps[t] &&& mask ≠ 0 then n else s.env.host.pc + 1 } s) := by
  simp only [runLine, branch_of_defined s h, bne_iff_ne]

theorem runLine_bz_of_defined {name n : Nat} (h : labelIndex s.env.host.program name = some n) (t : Fin 8)
    (mask : Word) : runLine (.bz t mask name) s = .next (setHost { s.env.host with
      pc := if s.env.host.temps[t] &&& mask = 0 then n else s.env.host.pc + 1 } s) := by
  simp only [runLine, branch_of_defined s h, beq_iff_eq]

theorem runLine_bnz_of_undefined {name : Nat} (h : labelIndex s.env.host.program name = none) {t : Fin 8}
    {mask : Word} (ht : s.env.host.temps[t] &&& mask ≠ 0) :
    runLine (.bnz t mask name) s = .fault .unknownLabel := by
  rw [runLine, bne_iff_ne.2 ht, branch_of_undefined s h]

theorem runLine_bz_of_undefined {name : Nat} (h : labelIndex s.env.host.program name = none) {t : Fin 8}
    {mask : Word} (ht : s.env.host.temps[t] &&& mask = 0) :
    runLine (.bz t mask name) s = .fault .unknownLabel := by
  rw [runLine, beq_iff_eq.2 ht, branch_of_undefined s h]

/-- A line's access while `rst` is asserted is refused (log 5). -/
theorem lineAccess_of_rst (hr : s.env.rst = true) (a : Access) (f : Word → HostAgent → HostAgent) :
    lineAccess a f s = .refused .accessDuringReset := by
  simp [lineAccess, portAccess, hr]

/-- An accepted WR line makes the write (30_encoding.md R65). -/
theorem runLine_wr (hr : s.env.rst = false) {off : BitVec 7} (ha : off.toNat % 4 = 0) (v : Word) :
    runLine (.wr off v) s = .next (afterWr s off v) := by
  rw [runLine, lineAccess, portAccess_released s _ hr, hostAccess_write s ha]
  simp [afterWr]

/-- An accepted RD line takes the value read (30_encoding.md R65). -/
theorem runLine_rd (hr : s.env.rst = false) {off : BitVec 7} (ha : off.toNat % 4 = 0) (t : Fin 8) :
    runLine (.rd off t) s = .next (afterRd s off t) := by
  rw [runLine, lineAccess, portAccess_released s _ hr, hostAccess_read s ha]
  rfl

/-- An accepted WR line leaves the block as its write does. -/
@[simp] theorem sameBlock_afterWr (off : BitVec 7) (v : Word) : SameBlock (busWrite off v s) (afterWr s off v) := by
  simp [afterWr]

/-- An accepted RD line leaves the block. -/
@[simp] theorem sameBlock_afterRd {s t : State} (off : BitVec 7) (r : Fin 8) :
    SameBlock s (afterRd t off r) ↔ SameBlock s t := by
  simp [afterRd]

/-- The program moves to the next line after an accepted WR line. -/
theorem afterWr_pc (off : BitVec 7) (v : Word) : (afterWr s off v).env.host.pc = s.env.host.pc + 1 := rfl

/-- Settles O56: line by line. -/
theorem hostLines : Obligations.HostLines :=
  fun s t mask v name n off => ⟨rfl,
    fun h => ⟨runLine_bnz_of_defined s h t mask, runLine_bz_of_defined s h t mask⟩,
    fun h => ⟨runLine_bnz_of_undefined s h, runLine_bz_of_undefined s h⟩, fun h => if_pos h, fun h => if_neg h,
    fun hr => ⟨by rw [runLine, lineAccess_of_rst s hr], by rw [runLine, lineAccess_of_rst s hr]⟩,
    fun hr ha => ⟨⟨_, runLine_wr s hr ha v, sameBlock_afterWr s off v, rfl⟩, _, runLine_rd s hr ha t, by simp, rfl⟩⟩

end Sys2Proof.Machine
end

section
/-! Proofs: the pseudo-instructions (30_encoding.md R66). WRBLK, ISSUE and CLRST are lines of writes and RDBLK is lines
of reads, each run by one induction over its lines; WAIT is run line by line (O57). -/

namespace Sys2Proof.Machine

variable {s t : State}

/-- The lines of the host program that are still to run (30_encoding.md R65). -/
def linesLeft (s : State) : List HostLine := s.env.host.program.drop s.env.host.pc

/-- The next line is the first of those left. -/
theorem getElem?_of_linesLeft {l : HostLine} {ls : List HostLine} (h : linesLeft s = l :: ls) :
    s.env.host.program[s.env.host.pc]? = some l := by
  rw [← List.head?_drop, ← linesLeft, h, List.head?_cons]

/-- At the next line, one line fewer is left. -/
theorem linesLeft_of_next {l : HostLine} {ls : List HostLine} (h : linesLeft s = l :: ls)
    (hprog : t.env.host.program = s.env.host.program) (hpc : t.env.host.pc = s.env.host.pc + 1) :
    linesLeft t = ls := by
  rw [linesLeft, hprog, hpc, ← List.tail_drop, ← linesLeft, h, List.tail_cons]

/-- The lines left of a pseudo-instruction that is to run from its first line. -/
theorem linesLeft_of_pc_zero {p : List HostLine} (hprog : s.env.host.program = p) (hpc : s.env.host.pc = 0) :
    linesLeft s = p := by
  rw [linesLeft, hprog, hpc, List.drop_zero]

/-- A run whose next event is the host program's runs its next line. -/
theorem runScript_program {l : HostLine} {ls : List HostLine} (hl : linesLeft s = l :: ls)
    (h : runLine l s = .next t) (es : List Event) : runScript (.program :: es) s = runScript es t := by
  simp only [runScript_cons, runEvent, runProgram, getElem?_of_linesLeft hl, h]

/-- The block of a state does not depend on its environment. -/
theorem sameBlock_setEnv_iff {e : Env} : SameBlock (setEnv s e) t ↔ SameBlock s t := by
  constructor <;> intro h
  · calc setEnv t s.env = setEnv (setEnv t e) s.env := rfl
      _ = setEnv (setEnv s e) s.env := congrArg (setEnv · s.env) h
  · calc setEnv t e = setEnv (setEnv t s.env) e := rfl
      _ = setEnv s e := congrArg (setEnv · e) h

/-! ### Lines of writes -/

/-- The writes of values at offsets, in order. -/
def busWrites (ws : List (BitVec 7 × Word)) (s : State) : State := ws.foldl (fun u w => busWrite w.1 w.2 u) s

theorem busWrites_singleton (off : BitVec 7) (v : Word) (s : State) : busWrites [(off, v)] s = busWrite off v s := rfl

/-- Writes do not read the environment. -/
theorem busWrites_setEnv (ws : List (BitVec 7 × Word)) (s : State) (e : Env) :
    busWrites ws (setEnv s e) = setEnv (busWrites ws s) e := by
  induction ws generalizing s with
  | nil => rfl
  | cons w ws ih =>
    have hw : busWrite w.1 w.2 (setEnv s e) = setEnv (busWrite w.1 w.2 s) e := writeReg_setEnv s _ _ e
    rw [busWrites, List.foldl_cons, hw]
    exact ih _

/-- WR lines leave the block as their writes do, and the host agent past the last line. -/
theorem runScript_writes (ws : List (BitVec 7 × Word)) (hws : ∀ w ∈ ws, w.1.toNat % 4 = 0)
    (hr : s.env.rst = false) (hl : linesLeft s = ws.map fun w => .wr w.1 w.2) :
    ∃ t, runScript (List.replicate ws.length .program) s = .next t ∧ SameBlock (busWrites ws s) t ∧
      t.env.host.pc = s.env.host.pc + ws.length := by
  induction ws generalizing s with
  | nil => exact ⟨_, rfl, rfl, rfl⟩
  | cons w ws ih =>
    obtain ⟨hw, hws⟩ := List.forall_mem_cons.1 hws
    obtain ⟨t, hrun, hblock, hpc⟩ := ih (s := afterWr s w.1 w.2) hws (by simpa [afterWr] using hr)
      (linesLeft_of_next hl rfl rfl)
    refine ⟨t, ?_, ?_, ?_⟩
    · rw [List.length_cons, List.replicate_succ, runScript_program hl (runLine_wr s hr hw w.2), hrun]
    · exact sameBlock_setEnv_iff.1 (busWrites_setEnv ws (busWrite w.1 w.2 s) (afterWr s w.1 w.2).env ▸ hblock)
    · rw [hpc, afterWr_pc, List.length_cons]
      omega

/-- The offsets of a 16-byte register are aligned (20_memory.md R42). -/
theorem offset_aligned (x : BlockReg) (k : Fin 4) : (BlockReg.offset x k).toNat % 4 = 0 :=
  ((wellFormed_iff .read _ _).1 (wellFormed_offset .read x k)).2

/-- The four writes of a block to a 16-byte register (30_encoding.md R66). -/
def blockWrites (x : BlockReg) (b : Block) : List (BitVec 7 × Word) :=
  [(BlockReg.offset x 0, pack b 0), (BlockReg.offset x 1, pack b 1), (BlockReg.offset x 2, pack b 2),
   (BlockReg.offset x 3, pack b 3)]

/-- While nothing is pending the four writes replace the block of KEY, IV or DIN (44_commands.md R116 to R118). -/
theorem busWrites_blockWrites (x : BlockReg) (b : Block) (hp : s.pending = none) :
    busWrites (blockWrites x b) s =
      match x with
      | .key => { s with key := b, keyValid := false, chainValid := false }
      | .iv => { s with iv := b }
      | .din => { s with din := b }
      | .dout => s := by
  cases x <;> simp [busWrites, blockWrites, busWrite_offset, hp, setKey, setIv, setDin, unpack_all]

/-! ### Lines of reads -/

/-- A read does not depend on the environment. -/
theorem busRead_setEnv (off : BitVec 7) (s : State) (e : Env) : busRead off (setEnv s e) = busRead off s := by
  unfold busRead
  cases regAt off <;> rfl

/-- The host agent after reads of the block of `s` into temporaries, in order. -/
def afterReads (rs : List (BitVec 7 × Fin 8)) (s : State) (h : HostAgent) : HostAgent :=
  rs.foldl (fun h r => readInto r.2 (busRead r.1 s) h) h

/-- RD lines leave the block and hand the host agent the values read. -/
theorem runScript_reads (rs : List (BitVec 7 × Fin 8)) (hrs : ∀ r ∈ rs, r.1.toNat % 4 = 0)
    (hr : s.env.rst = false) (hl : linesLeft s = rs.map fun r => .rd r.1 r.2) :
    ∃ t, runScript (List.replicate rs.length .program) s = .next t ∧ SameBlock s t ∧
      t.env.host = afterReads rs s s.env.host := by
  induction rs generalizing s with
  | nil => exact ⟨_, rfl, rfl, rfl⟩
  | cons r rs ih =>
    obtain ⟨ha, hrs⟩ := List.forall_mem_cons.1 hrs
    obtain ⟨t, hrun, hblock, hhost⟩ := ih (s := afterRd s r.1 r.2) hrs hr (linesLeft_of_next hl rfl rfl)
    refine ⟨t, ?_, sameBlock_setEnv_iff (e := (afterRd s r.1 r.2).env).1 hblock, ?_⟩
    · rw [List.length_cons, List.replicate_succ, runScript_program hl (runLine_rd s hr ha r.2), hrun]
    · have hread (off : BitVec 7) : busRead off (afterRd s r.1 r.2) = busRead off s :=
        busRead_setEnv off s (afterRd s r.1 r.2).env
      rw [hhost, afterReads]
      simp only [hread]
      rfl

/-! ### WAIT -/

/-- Bit 0 of STATUS under the mask of WAIT is BUSY (10_state.md R21). -/
theorem statusWord_and_one_ne_zero_iff : statusWord s &&& 0x1 ≠ 0 ↔ s.busy = true := by
  have hone : (0x1 : Word) = BitVec.twoPow 32 0 := rfl
  have hbit : (statusWord s).getLsbD 0 = s.busy := statusWord_getLsbD s 0
  rw [hone, BitVec.and_twoPow, hbit, ← hone]
  cases s.busy <;> decide

/-- A label on the first line is found there (30_encoding.md R65). -/
theorem labelIndex_head (name : Nat) (p : List HostLine) : labelIndex (.label name :: p) name = some 0 := by
  simp [labelIndex, List.findIdx_cons]

/-- The state after the first two lines of WAIT: the label, and the read of STATUS into t7 (30_encoding.md R66). -/
def afterPoll (s : State) : State := afterRd (setHost (nextLine s.env.host) s) 0x04 7

/-- The read of STATUS leaves it in t7. -/
theorem afterPoll_temps (s : State) : (afterPoll s).env.host.temps[(7 : Fin 8)] = statusWord s :=
  Vector.getElem_set_self (by decide)

/-- The branch of WAIT goes back to its label exactly while BUSY = 1 (30_encoding.md R66). -/
theorem runLine_bnz_afterPoll {fresh : Nat} (hprog : s.env.host.program = expandPseudo (.wait fresh))
    (hpc : s.env.host.pc = 0) : runLine (.bnz 7 0x1 fresh) (afterPoll s) =
      .next (setHost { (afterPoll s).env.host with pc := if s.busy then 0 else 3 } (afterPoll s)) := by
  have hlabel : labelIndex (afterPoll s).env.host.program fresh = some 0 := by
    change labelIndex s.env.host.program fresh = some 0
    rw [hprog]
    exact labelIndex_head fresh _
  have hnext : (afterPoll s).env.host.pc + 1 = 3 := congrArg (· + 3) hpc
  rw [runLine_bnz_of_defined _ hlabel, afterPoll_temps, hnext]
  simp only [statusWord_and_one_ne_zero_iff]

/-- WAIT leaves the block, and goes back to its label exactly while BUSY = 1 (30_encoding.md R66). -/
theorem runScript_wait {fresh : Nat} (hr : s.env.rst = false)
    (hprog : s.env.host.program = expandPseudo (.wait fresh)) (hpc : s.env.host.pc = 0) :
    ∃ t, runScript [.program, .program, .program] s = .next t ∧ SameBlock s t ∧
      t.env.host.pc = if s.busy then 0 else 3 := by
  have hlabel : linesLeft s = [.label fresh, .rd 0x04 7, .bnz 7 0x1 fresh] := linesLeft_of_pc_zero hprog hpc
  have hread : linesLeft (setHost (nextLine s.env.host) s) = [.rd 0x04 7, .bnz 7 0x1 fresh] :=
    linesLeft_of_next hlabel rfl rfl
  have hbranch : linesLeft (afterPoll s) = [.bnz 7 0x1 fresh] := linesLeft_of_next hread rfl rfl
  refine ⟨setScript [] (setHost { (afterPoll s).env.host with pc := if s.busy then 0 else 3 } (afterPoll s)), ?_,
    by simp [afterPoll], rfl⟩
  have hpoll : runLine (.rd 0x04 7) (setHost (nextLine s.env.host) s) = .next (afterPoll s) :=
    runLine_rd (setHost (nextLine s.env.host) s) hr rfl 7
  rw [runScript_program hlabel rfl, runScript_program hread hpoll]
  exact runScript_program hbranch (runLine_bnz_afterPoll hprog hpc) []

/-- The write of CLRST clears DONE and the error (44_commands.md R119). -/
theorem busWrite_clrst (s : State) :
    busWrite 0x04 0x00000012 s = { s with done := false, err := false, errCode := 0x0 } := rfl

/-- Settles O57: WRBLK, ISSUE and CLRST as writes, RDBLK as reads, WAIT line by line. -/
theorem pseudoInstructionsRun : Obligations.PseudoInstructionsRun := by
  refine ⟨fun x b s _ hp hr hprog hpc => ?_, fun x ta tb tc td s _ hr hprog hpc => ?_,
    fun _ _ => runScript_wait, fun i s hr hprog hpc => ?_,
    fun s hr hprog hpc => ?_, fun _ _ => rfl⟩
  · obtain ⟨t, hrun, hblock, ht⟩ := runScript_writes (blockWrites x b)
      (by simp [blockWrites, offset_aligned]) hr (linesLeft_of_pc_zero hprog hpc)
    rw [busWrites_blockWrites x b hp] at hblock
    refine ⟨t, hrun, by rw [ht, hpc]; rfl, ?_, ?_, ?_⟩ <;> rintro rfl <;> exact hblock
  · obtain ⟨t, hrun, hblock, ht⟩ :=
      runScript_reads [(BlockReg.offset x 0, ta), (BlockReg.offset x 1, tb), (BlockReg.offset x 2, tc),
        (BlockReg.offset x 3, td)]
        (by simp [offset_aligned]) hr (linesLeft_of_pc_zero hprog hpc)
    refine ⟨t, hrun, by rw [ht]; simp [afterReads, readInto, hpc], hblock, by rw [ht]; simp [afterReads, readInto],
      by rw [ht]; rfl⟩
  · obtain ⟨t, hrun, hblock, -⟩ :=
      runScript_writes [(0x00, encode i)] (by simp) hr (linesLeft_of_pc_zero hprog hpc)
    rw [busWrites_singleton, busWrite_cmd] at hblock
    exact ⟨t, hrun, hblock⟩
  · obtain ⟨t, hrun, hblock, -⟩ :=
      runScript_writes [(0x04, 0x00000012)] (by simp) hr (linesLeft_of_pc_zero hprog hpc)
    rw [busWrites_singleton, busWrite_clrst] at hblock
    exact ⟨t, hrun, hblock⟩

end Sys2Proof.Machine
end

section
/-! Proofs: the tables of 40_tables.md. Doubling and the small products in GF(2^8) (O44), and the S-box and the round
constants against their definitions (O45). The S-box is checked through the inverse it holds: undoing its affine map
gives `inv`, and `inv` undoes itself, so the S-box is a permutation. -/

namespace Sys2Proof

/-- Doubling without the ninth bit, in the form of the source (R68). -/
theorem xtime_eq (x : Byte) : xtime x = if x.getLsbD 7 then (x <<< 1) ^^^ 0x1B else x <<< 1 := by
  have hshift : (x.setWidth 9 <<< 1).setWidth 8 = x <<< 1 := by
    rw [BitVec.setWidth_shiftLeft_of_le (by decide), BitVec.setWidth_setWidth_of_le x (by decide), BitVec.setWidth_eq]
  simp only [xtime, BitVec.setWidth_xor, hshift]
  rfl

theorem xtime_zero : xtime 0#8 = 0#8 := rfl

/-- What a bit of `b` adds to the product: the operand, or nothing (R69). -/
theorem gmulStep_eq (b p a : Byte) (i : Nat) :
    gmulStep b (p, a) i = (p ^^^ (if b.getLsbD i then a else 0#8), xtime a) := by
  cases h : b.getLsbD i <;> simp [gmulStep, h]

/-- Passes over bits of `b` that are all 0 leave the product (R69). -/
theorem foldl_gmulStep_of_clear {b : Byte} {is : List Nat} (h : ∀ i ∈ is, b.getLsbD i = false) (p a : Byte) :
    (is.foldl (gmulStep b) (p, a)).1 = p := by
  induction is generalizing a with
  | nil => rfl
  | cons i is ih =>
    obtain ⟨hi, his⟩ := List.forall_mem_cons.1 h
    rw [List.foldl_cons, gmulStep_eq, hi, if_neg Bool.false_ne_true, BitVec.xor_zero, ih his]

/-- Passes on a zero operand change nothing (R69). -/
theorem foldl_gmulStep_zero (b p : Byte) (is : List Nat) : is.foldl (gmulStep b) (p, 0#8) = (p, 0#8) := by
  induction is with
  | nil => rfl
  | cons i is ih => rw [List.foldl_cons, gmulStep_eq, ite_self, BitVec.xor_zero, xtime_zero, ih]

/-- A factor below 0x04 adds only the operand and its double (R69). -/
theorem gmul_of_high_bits_clear (a : Byte) {b : Byte} (h : ∀ i ∈ [2, 3, 4, 5, 6, 7], b.getLsbD i = false) :
    gmul a b = (if b.getLsbD 0 then a else 0#8) ^^^ (if b.getLsbD 1 then xtime a else 0#8) :=
  calc gmul a b = (gmulStep b (gmulStep b (0#8, a) 0) 1).1 := foldl_gmulStep_of_clear h _ _
    _ = _ := by rw [gmulStep_eq, gmulStep_eq, BitVec.zero_xor]

theorem gmul_one (a : Byte) : gmul a 0x01 = a :=
  (gmul_of_high_bits_clear a (by decide)).trans (BitVec.xor_zero ..)

theorem gmul_two (a : Byte) : gmul a 0x02 = xtime a :=
  (gmul_of_high_bits_clear a (by decide)).trans (BitVec.zero_xor ..)

theorem gmul_three (a : Byte) : gmul a 0x03 = xtime a ^^^ a :=
  (gmul_of_high_bits_clear a (by decide)).trans (BitVec.xor_comm ..)

theorem gmul_zero (a : Byte) : gmul a 0x00 = 0 :=
  (gmul_of_high_bits_clear a (by decide)).trans (BitVec.xor_zero ..)

theorem zero_gmul (b : Byte) : gmul 0x00 b = 0 :=
  congrArg Prod.fst (foldl_gmulStep_zero b 0 _)

/-- Settles O44: doubling without its ninth bit, and the loop of `gmul` pass by pass. -/
theorem fieldArithmetic : Obligations.FieldArithmetic := fun x =>
  ⟨xtime_eq x, gmul_one x, gmul_two x, gmul_three x, gmul_zero x, zero_gmul x⟩

/-- The inverse of the S-box's affine map (R71). -/
def sboxUnaffine (s : Byte) : Byte := rotl8 s 1 ^^^ rotl8 s 3 ^^^ rotl8 s 6 ^^^ 0x05

/-- `inv(a)` of R71, read off the S-box. -/
def sboxInv (a : Byte) : Byte := sboxUnaffine (sbox a)

theorem sboxAffine_unaffine : ∀ s : Byte, sboxAffine (sboxUnaffine s) = s := by
  decide +kernel

/-- The S-box is the affine map of what it holds as `inv` (R71). -/
theorem sboxAffine_sboxInv (a : Byte) : sboxAffine (sboxInv a) = sbox a :=
  sboxAffine_unaffine (sbox a)

/-- What the S-box holds as `inv` is the inverse of R71, entry by entry. -/
theorem gmul_sboxInv : ∀ a : Byte, a ≠ 0 → gmul a (sboxInv a) = 0x01 := by
  decide +kernel

theorem sboxInv_sboxInv : ∀ a : Byte, sboxInv (sboxInv a) = a := by
  decide +kernel

/-- No two bytes share an S-box entry (R72): an entry gives `inv` of its byte, and that the byte. -/
theorem sbox_injective : Function.Injective sbox := fun x y h =>
  calc x = sboxInv (sboxInv x) := (sboxInv_sboxInv x).symm
    _ = sboxInv (sboxInv y) := congrArg (fun s => sboxInv (sboxUnaffine s)) h
    _ = y := sboxInv_sboxInv y

/-- No byte is its own S-box entry, nor the complement of it (R72), entry by entry. -/
theorem sbox_ne_self_and_ne_complement : ∀ x : Byte, sbox x ≠ x ∧ sbox x ≠ x ^^^ 0xFF := by
  decide +kernel

/-- Each round constant after the first is the double of the one before (R73). -/
theorem rcon_succ {j : Nat} (hlow : 1 ≤ j) (hhigh : j ≤ 9) : rcon (j + 1) = xtime (rcon j) := by
  interval_cases j <;> rfl

/-- Settles O45: the S-box through the inverse it holds, and the round constants one by one. -/
theorem tablesAgreeWithTheirDefinitions : Obligations.TablesAgreeWithTheirDefinitions :=
  ⟨rfl, fun a ha => ⟨sboxInv a, gmul_sboxInv a ha, (sboxAffine_sboxInv a).symm⟩, sbox_injective,
    sbox_ne_self_and_ne_complement, rfl, fun _ => rcon_succ⟩

end Sys2Proof
end

section
/-! Proofs: the key schedule (O46). The words of the expansion are those of `scheduleWord`, so the first four words and the
recurrence (41_key_schedule.md R78, R79) are read off it; where the index is a multiple of 4, the transformed word is
written out byte by byte (R75 to R77). -/

namespace Sys2Proof

theorem Quad.get_rotWord (q : Quad) (n : Fin 4) : (rotWord q).get n = q.get (n + 1) := by
  fin_cases n <;> rfl

theorem Quad.get_subWord (q : Quad) (n : Fin 4) : (subWord q).get n = sbox (q.get n) :=
  Quad.get_map sbox q n

/-- The transformed word before a multiple of 4, byte by byte (R75 to R77). -/
theorem scheduleTemp_four_mul (j : Nat) (q : Quad) :
    scheduleTemp (4 * j + 4) q = ⟨sbox q.b1 ^^^ rcon (j + 1), sbox q.b2, sbox q.b3, sbox q.b0⟩ := by
  have hmod : (4 * j + 4) % 4 = 0 := by omega
  have hdiv : (4 * j + 4) / 4 = j + 1 := by omega
  rw [scheduleTemp, if_pos hmod, hdiv]
  rfl

/-- The first four words are the key's (R78). -/
theorem keyExpansion_getElem_column (k : Block) (c : Fin 4) : (keyExpansion k)[c.val] = k.column c := by
  rw [keyExpansion_getElem]
  fin_cases c <;> rfl

/-- The recurrence on the words of KeyExpansion (R79). -/
theorem keyExpansion_getElem_add_four (k : Block) {i : Nat} (h : i + 4 < 44) :
    (keyExpansion k)[i + 4] = (keyExpansion k)[i].xor (scheduleTemp (i + 4) (keyExpansion k)[i + 3]) := by
  simp only [keyExpansion_getElem, scheduleWord_add_four]

/-- Round-key block 0 is the key (R81): its columns are the first four words. -/
theorem roundKey_keyExpansion_zero (k : Block) : roundKey (keyExpansion k) 0 = k := by
  refine Block.ext_column fun c => ?_
  calc (roundKey (keyExpansion k) 0).column c = (keyExpansion k)[c.val] := by fin_cases c <;> rfl
    _ = k.column c := keyExpansion_getElem_column k c

/-- Settles O46: the first four words and the recurrence, and the recurrence at the multiples of 4 byte by byte. -/
theorem keyScheduleRecurrence : Obligations.KeyScheduleRecurrence := by
  refine ⟨fun q n => ⟨q.get_rotWord n, q.get_subWord n⟩, fun _ _ _ _ => ⟨rfl, rfl, rfl, rfl⟩, fun k =>
    ⟨keyExpansion_getElem_column k, fun i h => keyExpansion_getElem_add_four k h, fun j h => ?_,
      roundKey_keyExpansion_zero k⟩⟩
  rw [keyExpansion_getElem_add_four k h, scheduleTemp_four_mul]
  rfl

end Sys2Proof
end

section
/-! Proofs: the cipher core of 42_cipher_core.md. The transforms byte by byte (O47), MixColumns as the circulant (O48),
the order of the rounds (O49), and the cipher's injectivity (O50). A State keeps its data through each transform: SubBytes
because the S-box is a permutation, AddRoundKey because two of them restore it, ShiftRows and MixColumns because four
do. -/

namespace Sys2Proof

/-- Column `c` of round key `k` is word `4k + c` of the schedule (41_key_schedule.md R80). -/
theorem column_roundKey (rk : RoundKeys) (k : Fin 11) (c : Fin 4) :
    (roundKey rk k).column c = rk[4 * k.val + c.val]'(by omega) := by
  fin_cases c <;> rfl

/-- Byte `n` of round key `k` is in word `4k + n div 4` of the schedule (41_key_schedule.md R80). -/
theorem byte_roundKey (rk : RoundKeys) (k : Fin 11) (n : Fin 16) :
    (roundKey rk k).byte n = (rk[4 * k.val + n.val / 4]'(by omega)).get ⟨n.val % 4, by omega⟩ := by
  rw [Block.byte, Block.cell, column_roundKey]

/-- AddRoundKey byte by byte (R85). -/
theorem byte_addRoundKey (rk : RoundKeys) (s : Block) (k : Fin 11) (n : Fin 16) : (addRoundKey rk s k).byte n =
    s.byte n ^^^ (rk[4 * k.val + n.val / 4]'(by omega)).get ⟨n.val % 4, by omega⟩ := by
  rw [addRoundKey, Block.byte_xor, byte_roundKey]

/-- AddRoundKey undoes itself (R85). -/
theorem addRoundKey_addRoundKey (rk : RoundKeys) (s : Block) (k : Fin 11) :
    addRoundKey rk (addRoundKey rk s k) k = s :=
  s.xor_xor_cancel (roundKey rk k)

/-- ShiftRows cell by cell (R87). -/
theorem cell_shiftRows (s : Block) (r c : Fin 4) : (shiftRows s).cell r c = s.cell r (c + r) :=
  Block.cell_ofCells ..

/-- Four ShiftRows rotate row `r` by `4r` positions, which is none (R87). -/
theorem shiftRows_four (s : Block) : shiftRows (shiftRows (shiftRows (shiftRows s))) = s :=
  Block.ext_cell fun r c => by
    have hrot : c + r + r + r + r = c := by omega
    simp only [cell_shiftRows, hrot]

/-- Settles O47: the byte of a round key is that of its word, and the other transforms are read off their laws. -/
theorem transformsByteByByte : Obligations.TransformsByteByByte := fun rk s k =>
  ⟨byte_addRoundKey rk s k, Block.byte_map sbox s, cell_shiftRows s, addRoundKey_addRoundKey rk s k, shiftRows_four s⟩

/-- Row `r` of the circulant: 02 for the byte of the row, 03 for the next, 01 for the other two (R88). -/
theorem get_mixColumn (a : Quad) (r : Fin 4) : (mixColumn a).get r =
    gmul (a.get r) 0x02 ^^^ gmul (a.get (r + 1)) 0x03 ^^^ a.get (r + 2) ^^^ a.get (r + 3) := by
  obtain ⟨a0, a1, a2, a3⟩ := a
  rw [gmul_two, gmul_three]
  match r with
  | 0 => rfl
  | 1 =>
    change a0 ^^^ xtime a1 ^^^ (xtime a2 ^^^ a2) ^^^ a3 = xtime a1 ^^^ (xtime a2 ^^^ a2) ^^^ a3 ^^^ a0
    ac_rfl
  | 2 =>
    change a0 ^^^ a1 ^^^ xtime a2 ^^^ (xtime a3 ^^^ a3) = xtime a2 ^^^ (xtime a3 ^^^ a3) ^^^ a0 ^^^ a1
    ac_rfl
  | 3 =>
    change (xtime a0 ^^^ a0) ^^^ a1 ^^^ a2 ^^^ xtime a3 = xtime a3 ^^^ (xtime a0 ^^^ a0) ^^^ a1 ^^^ a2
    ac_rfl

/-- MixColumn is linear over XOR (R88): each product is. -/
theorem mixColumn_xor (a b : Quad) : mixColumn (a.xor b) = (mixColumn a).xor (mixColumn b) := by
  refine Quad.ext_get fun r => ?_
  simp only [Quad.get_xor, get_mixColumn, gmul_two, gmul_three, xtime_xor]
  ac_rfl

theorem Quad.get_const (x : Byte) (n : Fin 4) : (Quad.mk x x x x).get n = x := by
  fin_cases n <;> rfl

/-- The coefficients of a row of the circulant add up to 01: 03 is 02 and 01 (R88). -/
theorem circulantRow_const (x : Byte) : gmul x 0x02 ^^^ gmul x 0x03 ^^^ x ^^^ x = x := by
  rw [gmul_two, gmul_three, xor_cancel8, BitVec.xor_self, BitVec.zero_xor]

/-- A column of equal bytes is unchanged (R88). -/
theorem mixColumn_const (x : Byte) : mixColumn ⟨x, x, x, x⟩ = ⟨x, x, x, x⟩ := by
  refine Quad.ext_get fun r => ?_
  simpa only [get_mixColumn, Quad.get_const] using circulantRow_const x

/-- MixColumns is MixColumn on each column (R89). -/
theorem column_mixColumns (s : Block) (c : Fin 4) : (mixColumns s).column c = mixColumn (s.column c) :=
  Block.column_ofColumns ..

/-- MixColumns cell by cell: the row of the circulant on the cell's column (R88, R89). -/
theorem cell_mixColumns (s : Block) (r c : Fin 4) : (mixColumns s).cell r c =
    gmul (s.cell r c) 0x02 ^^^ gmul (s.cell (r + 1) c) 0x03 ^^^ s.cell (r + 2) c ^^^ s.cell (r + 3) c :=
  calc (mixColumns s).cell r c = (mixColumn (s.column c)).get r := congrArg (·.get r) (column_mixColumns s c)
    _ = _ := get_mixColumn (s.column c) r

theorem mixColumns_xor (s t : Block) : mixColumns (s.xor t) = (mixColumns s).xor (mixColumns t) :=
  Block.ext_column fun c => by simp only [column_mixColumns, Block.column_xor, mixColumn_xor]

/-- Four MixColumns restore the State (R88, R89). -/
theorem mixColumns_four (s : Block) : mixColumns (mixColumns (mixColumns (mixColumns s))) = s :=
  Block.ext_column fun c => by simp only [column_mixColumns, mixColumn_four]

/-- Settles O48: column by column, by the circulant's rows. -/
theorem mixColumnsIsTheCirculant : Obligations.MixColumnsIsTheCirculant :=
  ⟨cell_mixColumns, mixColumns_xor, mixColumn_const⟩

/-- The cipher without Load and Store, which copy the block (R92). -/
theorem cipher_eq (rk : RoundKeys) (inp : Block) : cipher rk inp =
    finalRound rk (([1, 2, 3, 4, 5, 6, 7, 8, 9] : List (Fin 11)).foldl (fullRound rk) (addRoundKey rk inp 0)) := by
  rw [cipher, loadState_eq, storeState_eq]

/-- Settles O49: the loop over the nine rounds written out. -/
theorem cipherSequence : Obligations.CipherSequence := by
  refine ⟨fun _ _ => rfl, fun rk inp => ?_⟩
  rw [cipher_eq]
  simp only [List.foldl_cons, List.foldl_nil, fullRound, finalRound]

theorem addRoundKey_injective (rk : RoundKeys) (k : Fin 11) : Function.Injective (addRoundKey rk · k) :=
  Function.Involutive.injective fun s => addRoundKey_addRoundKey rk s k

/-- The S-box entries of a State determine its bytes (R86). -/
theorem subBytes_injective : Function.Injective subBytes := fun s t h =>
  Block.ext_cell fun r c => sbox_injective <|
    calc sbox (s.cell r c) = (subBytes s).cell r c := (s.cell_map sbox r c).symm
      _ = (subBytes t).cell r c := congrArg (·.cell r c) h
      _ = sbox (t.cell r c) := t.cell_map sbox r c

/-- Three more ShiftRows undo one (R87). -/
theorem shiftRows_injective : Function.Injective shiftRows :=
  Function.LeftInverse.injective (g := fun s => shiftRows (shiftRows (shiftRows s))) shiftRows_four

/-- Three more MixColumns undo one (R89). -/
theorem mixColumns_injective : Function.Injective mixColumns :=
  Function.LeftInverse.injective (g := fun s => mixColumns (mixColumns (mixColumns s))) mixColumns_four

theorem fullRound_injective (rk : RoundKeys) (q : Fin 11) : Function.Injective (fullRound rk · q) :=
  (addRoundKey_injective rk q).comp <| mixColumns_injective.comp <| shiftRows_injective.comp subBytes_injective

theorem finalRound_injective (rk : RoundKeys) : Function.Injective (finalRound rk) :=
  (addRoundKey_injective rk 10).comp <| shiftRows_injective.comp subBytes_injective

/-- Any sequence of full rounds keeps two States apart (R92). -/
theorem foldl_fullRound_injective (rk : RoundKeys) (qs : List (Fin 11)) :
    Function.Injective (qs.foldl (fullRound rk) ·) := by
  induction qs with
  | nil => exact Function.injective_id
  | cons q qs ih => exact ih.comp (fullRound_injective rk q)

/-- Settles O50: the whitening, the nine rounds and the last round are each injective. -/
theorem cipherIsInjective : Obligations.CipherIsInjective := by
  intro rk x y h
  rw [cipher_eq, cipher_eq] at h
  exact addRoundKey_injective rk 0 (foldl_fullRound_injective rk _ (finalRound_injective rk h))

end Sys2Proof
end

section
/-! Proofs: the message function of 43_ofb.md, byte by byte. Byte `m` of its output is byte `m` of the message XORed with
one keystream byte that does not depend on the message (O52), so the function undoes itself (O51). -/

namespace Sys2Proof

variable (e : Block → Block)

/-- Byte `m` of the keystream `E(IV), E(E(IV)), …` (R95). -/
def keystreamByte (iv : Block) (m : Nat) : Byte := (chainAfter e (m / 16 + 1) iv).byte ⟨m % 16, by omega⟩

/-- The first 16 keystream bytes are `E(IV)` (R95). -/
theorem keystreamByte_of_lt (iv : Block) {m : Nat} (h : m < 16) : keystreamByte e iv m = (e iv).byte ⟨m, h⟩ := by
  simp [keystreamByte, Nat.div_eq_of_lt h, Nat.mod_eq_of_lt h, chainAfter]

/-- The keystream goes on as that of the chaining register advanced (R95). -/
theorem keystreamByte_add (iv : Block) (n m : Nat) :
    keystreamByte e iv (16 * n + m) = keystreamByte e (chainAfter e n iv) m := by
  induction n generalizing iv with
  | zero => rw [Nat.mul_zero, Nat.zero_add, chainAfter]
  | succ n ih =>
    rw [← chainAfter_apply, ← ih, Nat.mul_succ, Nat.add_right_comm]
    simp [keystreamByte, chainAfter_apply]

@[simp] theorem xorKeystream_nil (o : Block) : xorKeystream [] o = [] := rfl

/-- The partial step on no bytes adds no byte, so R95 step 3 needs no test (90_conflicts.md C2). -/
theorem ofbMessage_eq (iv : Block) (p : List Byte) : ofbMessage e iv p =
    (ofbFullBlocks e (p.length / 16) iv p).1 ++
      xorKeystream (p.drop (16 * (p.length / 16))) (e (chainAfter e (p.length / 16) iv)) := by
  simp only [ofbMessage, ofbFullBlocks_chain]
  split
  · rfl
  · have hdrop : p.drop (16 * (p.length / 16)) = [] := List.drop_eq_nil_of_le (by omega)
    rw [hdrop, xorKeystream_nil, List.append_nil]

/-- The bytes a message leaves for the partial step (R95). -/
theorem length_drop_full_blocks (p : List Byte) : (p.drop (16 * (p.length / 16))).length = p.length % 16 := by
  rw [List.length_drop]
  omega

/-- The message function keeps the length (R101). -/
theorem ofbMessage_length (iv : Block) (p : List Byte) : (ofbMessage e iv p).length = p.length := by
  rw [ofbMessage_eq, List.length_append, ofbFullBlocks_length _ _ _ _ (by omega), xorKeystream_length,
    length_drop_full_blocks]
  omega

/-- Byte `j` of what is left after the first `n` bytes. -/
theorem getD_drop (p : List Byte) (n j : Nat) : (p.drop n).getD j 0 = p.getD (n + j) 0 := by
  rw [List.getD_eq_getElem?_getD, List.getElem?_drop, ← List.getD_eq_getElem?_getD]

/-- The bytes of one full block and those of the rest (R95 step 2). -/
theorem ofbFullBlocks_succ (n : Nat) (x : Block) (p : List Byte) : (ofbFullBlocks e (n + 1) x p).1 =
    xorKeystream (p.take 16) (e x) ++ (ofbFullBlocks e n (e x) (p.drop 16)).1 := rfl

/-- Byte `m` of the full blocks (R95 step 2). -/
theorem ofbFullBlocks_getD {n : Nat} {p : List Byte} (h : 16 * n ≤ p.length) (x : Block) {m : Nat} (hm : m < 16 * n) :
    (ofbFullBlocks e n x p).1.getD m 0 = p.getD m 0 ^^^ keystreamByte e x m := by
  induction n generalizing x p m with
  | zero => omega
  | succ n ih =>
    have hhead : (p.take 16).length = 16 := List.length_take_of_le (by omega)
    have hfirst : (xorKeystream (p.take 16) (e x)).length = 16 := by rw [xorKeystream_length, hhead, Nat.min_self]
    rw [ofbFullBlocks_succ]
    by_cases h16 : m < 16
    · rw [List.getD_append _ _ _ _ (by omega), xorKeystream_getD _ _ _ (by omega) h16, keystreamByte_of_lt e x h16]
      simp [List.getD_eq_getElem?_getD, h16]
    · obtain ⟨j, rfl⟩ := Nat.exists_eq_add_of_le (Nat.le_of_not_lt h16)
      rw [List.getD_append_right _ _ _ _ (by omega), hfirst, Nat.add_sub_cancel_left,
        ih (by rw [List.length_drop]; omega) (e x) (by omega), getD_drop]
      exact congrArg _ (keystreamByte_add e x 1 j).symm

/-- Byte `m` of the output is byte `m` of the message XORed with the keystream (R95). -/
theorem ofbMessage_getD (iv : Block) {p : List Byte} {m : Nat} (hm : m < p.length) :
    (ofbMessage e iv p).getD m 0 = p.getD m 0 ^^^ keystreamByte e iv m := by
  have hfull : (ofbFullBlocks e (p.length / 16) iv p).1.length = 16 * (p.length / 16) :=
    ofbFullBlocks_length e _ iv p (by omega)
  rw [ofbMessage_eq]
  by_cases hn : m < 16 * (p.length / 16)
  · rw [List.getD_append _ _ _ _ (by omega), ofbFullBlocks_getD e (by omega) iv hn]
  · obtain ⟨j, rfl⟩ := Nat.exists_eq_add_of_le (Nat.le_of_not_lt hn)
    rw [List.getD_append_right _ _ _ _ (by omega), hfull, Nat.add_sub_cancel_left,
      xorKeystream_getD _ _ _ (by rw [List.length_drop]; omega) (by omega), getD_drop, keystreamByte_add,
      keystreamByte_of_lt]

/-- Settles O52: the length and the bytes of the message function over AES. -/
theorem ofbKeepsTheLengthAndXorsTheKeystream : Obligations.OfbKeepsTheLengthAndXorsTheKeystream := fun k iv p =>
  ⟨ofbMessage_length (aes k) iv p, fun _ => ofbMessage_getD (aes k) iv⟩

/-- The message function undoes itself: both times it XORs byte `m` with the same keystream byte (R100). -/
theorem ofbMessage_ofbMessage (iv : Block) (p : List Byte) : ofbMessage e iv (ofbMessage e iv p) = p := by
  have hlen : (ofbMessage e iv p).length = p.length := ofbMessage_length e iv p
  refine List.ext_getElem ((ofbMessage_length e iv _).trans hlen) fun m h hm => ?_
  rw [← List.getD_eq_getElem _ 0 h, ← List.getD_eq_getElem _ 0 hm]
  calc (ofbMessage e iv (ofbMessage e iv p)).getD m 0
      = p.getD m 0 ^^^ keystreamByte e iv m ^^^ keystreamByte e iv m := by
        rw [ofbMessage_getD e iv (hlen ▸ hm), ofbMessage_getD e iv hm]
    _ = p.getD m 0 := by rw [BitVec.xor_assoc, BitVec.xor_self, BitVec.xor_zero]

/-- Settles O51: over AES under the key. -/
theorem ofbIsSelfInverse : Obligations.OfbIsSelfInverse := fun k => ofbMessage_ofbMessage (aes k)

end Sys2Proof
end

section
/-! Proofs: the OFB protocol of 43_ofb.md R104. Its events are followed as changes of the block whatever the world
outside (`BlockRuns`): WRBLK replaces a block and RUN is acceptance then completion. The message stays open over the full
blocks, with CHAIN the chaining register of R95, and the bytes read are those of the message function (O53). -/

namespace Sys2Proof

theorem Block.toBytes_getElem (b : Block) {n : Nat} (h : n < b.toBytes.length) : b.toBytes[n] = b.byte ⟨n, h⟩ := by
  rw [← Block.getD_toBytes, List.getD_eq_getElem]

/-- Byte `n` of the block of a list (R13). -/
theorem Block.byte_ofList (p : List Byte) (n : Fin 16) : (Block.ofList p).byte n = p.getD n.val 0 :=
  Block.byte_ofBytes _ n

/-- A block whose first bytes are data XORed with a keystream block starts with `xorKeystream` (R95, R98, R99). -/
theorem toBytes_take_eq_xorKeystream {b o : Block} {p : List Byte} (hp : p.length ≤ 16)
    (h : ∀ (n : Fin 16), n.val < p.length → b.byte n = p.getD n.val 0 ^^^ o.byte n) :
    b.toBytes.take p.length = xorKeystream p o := by
  have hlen : (b.toBytes.take p.length).length = (xorKeystream p o).length := by
    rw [List.length_take, xorKeystream_length, Block.length_toBytes]
  refine List.ext_getElem hlen fun n hn hn' => ?_
  have hnp : n < p.length := by rw [List.length_take] at hn; omega
  rw [List.getElem_take, Block.toBytes_getElem, h _ hnp, ← xorKeystream_getD p o n hnp (by omega),
    List.getD_eq_getElem _ _ hn']

/-- The output of a full block (R98), as bytes. -/
theorem toBytes_xor_ofList (o : Block) {p : List Byte} (hp : p.length = 16) :
    ((Block.ofList p).xor o).toBytes = xorKeystream p o := by
  rw [← toBytes_take_eq_xorKeystream (b := (Block.ofList p).xor o) hp.le fun n _ => by
    rw [Block.byte_xor, Block.byte_ofList], hp]
  rfl

/-- The data bytes of the output of the partial step (R99): the padding does not reach them. -/
theorem toBytes_take_partialOut (o : Block) {p : List Byte} (pad : List Byte) (hp : p.length ≤ 16) :
    (partialOut (Block.ofList (p ++ pad)) o p.length).toBytes.take p.length = xorKeystream p o :=
  toBytes_take_eq_xorKeystream hp fun n hn => by
    rw [partialOut, Block.byte_ofBytes, if_pos hn, Block.byte_ofList, List.getD_append _ _ _ _ hn]

end Sys2Proof

namespace Sys2Proof.Machine

variable {s t u : State} {es es' : List Event}

/-- The events `es` take the block of `s` to the block of `t`, with no stop and `rst` still released, whatever the world
outside. -/
def BlockRuns (es : List Event) (s t : State) : Prop :=
  ∀ e : Env, e.rst = false → ∃ e' : Env, e'.rst = false ∧ runScript es (setEnv s e) = .next (setEnv t e')

/-- The run of such events from the state itself. -/
theorem BlockRuns.runScript_eq (h : BlockRuns es s t) (hr : s.env.rst = false) :
    ∃ e : Env, e.rst = false ∧ runScript es s = .next (setEnv t e) :=
  h s.env hr

theorem BlockRuns.append (h : BlockRuns es s t) (h' : BlockRuns es' t u) : BlockRuns (es ++ es') s u := by
  intro e he
  obtain ⟨e₁, he₁, hrun₁⟩ := h e he
  obtain ⟨e₂, he₂, hrun₂⟩ := h' e₁ he₁
  exact ⟨e₂, he₂, by rw [runScript_append, hrun₁, ← hrun₂]⟩

theorem blockRuns_nil (s : State) : BlockRuns [] s s := fun e he => ⟨{ e with script := [] }, he, rfl⟩

/-- An access at the port (20_memory.md R43). -/
theorem blockRuns_access (a : Access) (s : State) : BlockRuns [.bus a] s (hostAccess a s).2 := by
  intro e he
  have hset : hostAccess a (setEnv s e) = ((hostAccess a s).1, setEnv (hostAccess a s).2 e) := hostAccess_setEnv s a e
  refine ⟨{ e with script := [], response := some (hostAccess a s).1 }, he, ?_⟩
  rw [runScript_cons, runEvent, busStep_released (setEnv s e) a he, hset]
  rfl

theorem blockRuns_write {off : BitVec 7} (ha : off.toNat % 4 = 0) (v : Word) (s : State) :
    BlockRuns [busWrite32 off v] s (busWrite off v s) := by
  have h := blockRuns_access ⟨.write v, off, .four⟩ s
  rwa [hostAccess_write s ha] at h

/-- A read changes no block state (20_memory.md R45). -/
theorem blockRuns_read (off : BitVec 7) (s : State) : BlockRuns [busRead32 off] s s := by
  have h := blockRuns_access ⟨.read, off, .four⟩ s
  rwa [hostAccess_read_state] at h

/-- The engine's step on a pending command (44_commands.md R107). -/
theorem blockRuns_engine {i : Instr} (hp : s.pending = some i) : BlockRuns [.engine] s (completed i s) := by
  intro e he
  have hset : completed i (setEnv s e) = setEnv (completed i s) e := completed_setEnv s i e
  refine ⟨{ e with script := [] }, he, ?_⟩
  rw [runScript_engine (setEnv s e) he hp, hset]
  rfl

/-- Writes in order. -/
theorem blockRuns_writes (ws : List (BitVec 7 × Word)) (hws : ∀ w ∈ ws, w.1.toNat % 4 = 0) (s : State) :
    BlockRuns (ws.map fun w => busWrite32 w.1 w.2) s (busWrites ws s) := by
  induction ws generalizing s with
  | nil => exact blockRuns_nil s
  | cons w ws ih =>
    obtain ⟨hw, hws⟩ := List.forall_mem_cons.1 hws
    exact (blockRuns_write hw w.2 s).append (ih hws _)

/-- WRBLK (30_encoding.md R66). -/
theorem blockRuns_writeBlock (x : BlockReg) (b : Block) (s : State) :
    BlockRuns (writeBlockEvents x b) s (busWrites (blockWrites x b) s) :=
  blockRuns_writes (blockWrites x b) (by simp [blockWrites, offset_aligned]) s

/-- The polls of WAIT (30_encoding.md R66). -/
theorem blockRuns_polls (n : Nat) (s : State) : BlockRuns (List.replicate n (busRead32 0x04)) s s := by
  induction n with
  | zero => exact blockRuns_nil s
  | succ n ih => exact (blockRuns_read _ s).append ih

/-- A write to CMD of the word of a command whose checks pass is its acceptance (44_commands.md R105, R106). -/
theorem busWrite_encode {i : Instr} (hp : s.pending = none) (hc : checkDecoded i s = none) :
    busWrite 0x00 (encode i) s = accept (encode i) s := by
  have hcheck : checkCmd (encode i) s = none := (checkCmd_eq_none s).2 ⟨hp, i, decode_encode i, hc⟩
  rw [busWrite_cmd, writeCmd, hcheck]

/-- RUN (30_encoding.md R66): acceptance, then completion, however often the host polls between them. -/
theorem blockRuns_run (polls : Nat) {i : Instr} (hp : s.pending = none) (hc : checkDecoded i s = none) :
    BlockRuns (runEvents polls i) s (completed i (accept (encode i) s)) := by
  have hissue : BlockRuns [busWrite32 0x00 (encode i)] s (accept (encode i) s) :=
    busWrite_encode hp hc ▸ blockRuns_write rfl (encode i) s
  have hpending : (accept (encode i) s).pending = some i := decode?_eq_some.2 (decode_encode i)
  exact hissue.append <| (blockRuns_polls polls _).append <| (blockRuns_engine hpending).append (blockRuns_read _ _)

/-- WRBLK of a block to DIN, then RUN of a command whose checks pass: one round of R104 steps 5 and 6. -/
theorem blockRuns_process (polls : Nat) (d : Block) {i : Instr} (hp : s.pending = none) (hc : checkDecoded i s = none) :
    BlockRuns (writeBlockEvents .din d ++ runEvents polls i) s
      (completed i (accept (encode i) { s with din := d })) := by
  have hwrite := blockRuns_writeBlock .din d s
  rw [busWrites_blockWrites .din d hp] at hwrite
  exact hwrite.append (blockRuns_run polls hp hc)

/-- The protocol has opened a message from `s` and reached `t`: the block is idle, RK is the schedule of `k`, CHAIN is
`x`, and no error was raised since `s` (43_ofb.md R104, 10_state.md R39, R40). -/
structure MessageOpen (k x : Block) (s t : State) : Prop where
  rst        : t.env.rst = false
  pending    : t.pending = none
  keyValid   : t.keyValid = true
  rk         : t.rk = keyExpansion k
  chainValid : t.chainValid = true
  chain      : t.chain = x
  err        : t.err = s.err
  errCode    : t.errCode = s.errCode

/-- In an open message the command checks of R122 leave only LEN. -/
theorem MessageOpen.checkDecoded_eq_none {k x : Block} (h : MessageOpen k x s t) {i : Instr}
    (hi : i.wellFormed = true) : checkDecoded i t = none :=
  (Machine.checkDecoded_eq_none t).2 ⟨hi, fun _ => h.keyValid, fun _ => h.chainValid⟩

/-- The keystream block that the next command uses (42_cipher_core.md R92). -/
theorem MessageOpen.cipher_eq {k x : Block} (h : MessageOpen k x s t) : cipher t.rk t.chain = aes k x := by
  rw [h.rk, h.chain, aes]

/-- Steps 1 to 4 of R104 open a message. -/
theorem openMessage_opens (polls : Nat) (k iv : Block) (hp : s.pending = none) (hr : s.env.rst = false) :
    ∃ t, runScript (openMessageEvents polls k iv) s = .next t ∧ MessageOpen k iv s t := by
  have hkey := blockRuns_writeBlock .key k s
  rw [busWrites_blockWrites .key k hp] at hkey
  have hkeyexp := hkey.append (blockRuns_run polls (i := .keyexp) hp rfl)
  have hiv := hkeyexp.append (blockRuns_writeBlock .iv iv _)
  rw [busWrites_blockWrites .iv iv rfl] at hiv
  obtain ⟨e, he, hrun⟩ := (hiv.append (blockRuns_run polls (i := .ofbInit) rfl rfl)).runScript_eq hr
  exact ⟨_, hrun, he, rfl, rfl, rfl, rfl, rfl, rfl, rfl⟩

/-- One round of step 5 of R104: the block read is OFBBlock's (R98), and the message stays open, one block further. -/
theorem MessageOpen.block_step {k x : Block} (h : MessageOpen k x s t) (polls : Nat) (d : Block) :
    ∃ u, runScript (writeBlockEvents .din d ++ runEvents polls .ofbBlock) t = .next u ∧
      readBlock .dout u = d.xor (aes k x) ∧ MessageOpen k (aes k x) s u := by
  obtain ⟨e, he, hrun⟩ :=
    (blockRuns_process polls d h.pending (h.checkDecoded_eq_none (i := .ofbBlock) rfl)).runScript_eq h.rst
  refine ⟨_, hrun, ?_, he, rfl, h.keyValid, h.rk, h.chainValid, h.cipher_eq, h.err, h.errCode⟩
  rw [readBlock_eq, ← h.cipher_eq]
  rfl

/-- Step 6 of R104: the block read is OFBPartial's (R99), and the message is closed. -/
theorem MessageOpen.final_step {k x : Block} (h : MessageOpen k x s t) (polls : Nat) (d : Block) {len : BitVec 4}
    (hlen : len ≠ 0) :
    ∃ u, runScript (writeBlockEvents .din d ++ runEvents polls (.ofbFinal len)) t = .next u ∧
      readBlock .dout u = partialOut d (aes k x) len.toNat ∧ u.chainValid = false ∧ u.err = s.err ∧
      u.errCode = s.errCode := by
  have hwf : (Instr.ofbFinal len).wellFormed = true := bne_iff_ne.2 hlen
  obtain ⟨e, -, hrun⟩ :=
    (blockRuns_process polls d h.pending (h.checkDecoded_eq_none hwf)).runScript_eq h.rst
  refine ⟨_, hrun, ?_, rfl, h.err, h.errCode⟩
  rw [readBlock_eq, ← h.cipher_eq]
  rfl

/-- Step 5 of R104: the bytes read are those of R95 step 2, and the message is open at its chaining register. -/
theorem MessageOpen.fullBlocksProtocol_eq {k x : Block} (h : MessageOpen k x s t) (polls n : Nat) {p : List Byte}
    (hn : 16 * n ≤ p.length) :
    ∃ u, fullBlocksProtocol polls n p t = some ((ofbFullBlocks (aes k) n x p).1, u) ∧
      MessageOpen k (chainAfter (aes k) n x) s u := by
  induction n generalizing x p t with
  | zero => exact ⟨t, rfl, h⟩
  | succ n ih =>
    obtain ⟨u, hrun, hread, hu⟩ := h.block_step polls (Block.ofList (p.take 16))
    obtain ⟨w, hrest, hw⟩ := ih hu (p := p.drop 16) (by rw [List.length_drop]; omega)
    have hhead : (p.take 16).length = 16 := List.length_take_of_le (by omega)
    refine ⟨w, ?_, chainAfter_apply (aes k) n x ▸ hw⟩
    simp only [fullBlocksProtocol, hrun, hrest, hread, toBytes_xor_ofList _ hhead, ofbFullBlocks_succ]

/-- Step 6 of R104: the bytes read are those of R95 step 3, and the message is closed if there are any. -/
theorem MessageOpen.partialProtocol_eq {k x : Block} (h : MessageOpen k x s t) (polls : Nat) {p : List Byte}
    (pad : List Byte) (hp : p.length < 16) :
    ∃ u, partialProtocol polls p pad t = some (xorKeystream p (aes k x), u) ∧ u.err = s.err ∧
      u.errCode = s.errCode ∧ u.chainValid = decide (p.length = 0) := by
  cases p with
  | nil => exact ⟨t, rfl, h.err, h.errCode, h.chainValid⟩
  | cons b q =>
    have hlen : (BitVec.ofNat 4 (b :: q).length).toNat = (b :: q).length := Nat.mod_eq_of_lt hp
    have hne : BitVec.ofNat 4 (b :: q).length ≠ 0 := fun h0 => by
      rw [h0] at hlen
      cases hlen
    obtain ⟨u, hrun, hread, hclosed, herr, hcode⟩ := h.final_step polls (Block.ofList (b :: q ++ pad)) hne
    refine ⟨u, ?_, herr, hcode, hclosed⟩
    rw [hlen] at hread
    rw [partialProtocol, if_pos (by simp), hrun]
    simp only [hread, toBytes_take_partialOut _ pad hp.le]

/-- Settles O53: steps 1 to 4, 5 and 6 in turn. -/
theorem ofbProtocolComputesTheTransform : Obligations.OfbProtocolComputesTheTransform := by
  intro polls k iv p pad s hp hr
  obtain ⟨s₁, hrun, h₁⟩ := openMessage_opens polls k iv hp hr
  obtain ⟨s₂, hfull, h₂⟩ := h₁.fullBlocksProtocol_eq polls (p.length / 16) (p := p) (by omega)
  have hrest := length_drop_full_blocks p
  obtain ⟨s₃, hpart, herr, hcode, hchain⟩ :=
    h₂.partialProtocol_eq polls (p := p.drop (16 * (p.length / 16))) pad (by omega)
  refine ⟨s₃, ?_, herr, hcode, hrest ▸ hchain⟩
  simp only [ofbProtocol, hrun, hfull, hpart, ofbTransform, ofbMessage_eq]

end Sys2Proof.Machine
end

section
/-! Proofs: the writes of KEY, IV, DIN, STATUS and CMD (O15 to O17, O21), the seven commands (O31 to O37), the frame of
their completions (O38), and issue then completion (O40). -/

namespace Sys2Proof.Machine

/-! ### Writes -/

/-- Settles O15: the offset is KEYk's, whose write is an operand write. -/
theorem keyWordWrite : Obligations.KeyWordWrite := by
  intro k v s
  rw [busWrite, regAt_key]
  exact operandWrite_eq s (setKey k v)

/-- Settles O16: the offsets are those of IVk and DINk, whose writes are operand writes. -/
theorem ivAndDinWordWrites : Obligations.IvAndDinWordWrites := by
  refine fun k v s => ⟨?_, ?_⟩ <;> rw [busWrite]
  · rw [regAt_iv]
    exact operandWrite_eq s (setIv k v)
  · rw [regAt_din]
    exact operandWrite_eq s (setDin k v)

/-- Settles O17: offset 0x04 is that of STATUS. -/
theorem statusWrite : Obligations.StatusWrite := fun v s => writeReg_status s v

/-- Settles O21: a CMD write that is not accepted is one that `CheckCmd` rejects. -/
theorem acceptedCommandIsPending : Obligations.AcceptedCommandIsPending := by
  intro v s h
  rcases writeCmd_cases s v with ⟨e, he, -⟩ | ⟨i, -, hd, -, -, hw⟩
  · cases h.symm.trans he
  · exact ⟨i, hd, by rw [hostAccess_write s rfl, busWrite_cmd, hw]⟩

/-! ### Issue -/

/-- `CheckCmd` on the word of a command (60_exceptions.md R122, R123). -/
theorem checkCmd_encode (i : Instr) (s : State) :
    checkCmd (encode i) s = if s.busy then some .busy else checkDecoded i s := by
  rw [checkCmd, decode_encode]

/-- The checks of a command that reads RK and CHAIN (R122, R123). -/
theorem checkDecoded_of_needsChain {i : Instr} (hwf : i.wellFormed = true) (hk : needsKey i = true)
    (hc : needsChain i = true) (s : State) :
    checkDecoded i s =
      if s.keyValid = false then some .noKey else if s.chainValid = false then some .noChain else none := by
  simp [checkDecoded, hwf, hk, hc]

/-- Acceptance of the word of a command (44_commands.md R106). -/
theorem accept_encode (i : Instr) (s : State) :
    accept (encode i) s = { s with cmdLast := encode i, pending := some i, done := false } := by
  rw [accept, decode?_eq_some.2 (decode_encode i)]

/-- The run of the engine's event alone completes the pending command, with no event left (44_commands.md R107). -/
theorem runScript_engine_only {i : Instr} {s : State} (hr : s.env.rst = false) (hp : s.pending = some i) :
    runScript [.engine] s = .next (completed i (setScript [] s)) := by
  rw [runScript_engine s hr hp, runScript_nil, completed_setScript]

/-- Settles O40: the write is acceptance, and the engine completes the command that acceptance leaves pending. -/
theorem issuedCommandCompletes : Obligations.IssuedCommandCompletes := by
  intro i s hp hr hc
  refine ⟨_, ?_, exec_eq _ i⟩
  have hissue : busWrite 0x00 (encode i) s =
      { s with cmdLast := encode i, pending := some i, done := false } :=
    (busWrite_encode hp hc).trans (accept_encode i s)
  rw [runScript_write s hr rfl, hissue]
  exact runScript_engine_only hr rfl

/-! ### The commands -/

/-- Settles O31: the word of all zeros decodes to NOP, so no other command has it. -/
theorem nopCommand : Obligations.NopCommand := by
  refine ⟨rfl, fun i hi => ?_, fun s => ⟨checkCmd_encode .nop s, rfl⟩⟩
  have hdecode : decode (encode i) = decode (encode .nop) := congrArg decode hi
  rw [decode_encode, decode_encode] at hdecode
  exact Except.ok.inj hdecode

/-- Settles O32: where the schedule is cached, it is the one KEYEXP computes (10_state.md R39). -/
theorem keyexpCommand : Obligations.KeyexpCommand :=
  ⟨rfl, fun s => ⟨checkCmd_encode .keyexp s, rfl, fun hs hk => ⟨_, rfl, (hs.keyCached hk).symm⟩⟩⟩

/-- Settles O33: the cached schedule is that of KEY (10_state.md R39), and ENC leaves RK and DIN. -/
theorem encCommand : Obligations.EncCommand := by
  refine ⟨rfl, fun s => ⟨?_, rfl, _, _, rfl, fun hs hk => ?_, rfl, rfl⟩⟩
  · refine (checkCmd_encode .enc s).trans ?_
    cases h : s.keyValid <;> simp [checkDecoded, Instr.wellFormed, needsKey, needsChain, h]
  · rw [aes, ← hs.keyCached hk]
    rfl

/-- Settles O34: OFB_INIT needs neither valid bit, so BUSY is the only error. -/
theorem ofbInitCommand : Obligations.OfbInitCommand := ⟨rfl, fun s => ⟨checkCmd_encode .ofbInit s, rfl⟩⟩

/-- Settles O35: DOUT is an XOR of blocks. -/
theorem ofbBlockCommand : Obligations.OfbBlockCommand := by
  refine ⟨rfl, fun s => ⟨?_, _, rfl, fun n => Block.byte_xor _ _ n, rfl⟩⟩
  refine (checkCmd_encode .ofbBlock s).trans ?_
  rw [checkDecoded_of_needsChain rfl rfl rfl]

/-- The word of OFB_FINAL (30_encoding.md R57, R58). -/
theorem encode_ofbFinal : ∀ len : BitVec 4,
    encode (.ofbFinal len) = 0x00000005 ||| (len.setWidth 32 <<< 8) := by
  decide

/-- Settles O36: LEN is checked first, and DOUT is the output of the partial step. -/
theorem ofbFinalCommand : Obligations.OfbFinalCommand := by
  refine fun len => ⟨encode_ofbFinal len, fun s => ⟨?_, fun _ => ⟨_, rfl, fun n => Block.byte_ofBytes _ n, rfl⟩⟩⟩
  rw [checkCmd_encode]
  by_cases hlen : len = 0
  · simp [checkDecoded, Instr.wellFormed, hlen]
  · have hwf : (Instr.ofbFinal len).wellFormed = true := bne_iff_ne.2 hlen
    rw [if_neg hlen, checkDecoded_of_needsChain hwf rfl rfl]

/-- Settles O37: CLEAR needs neither valid bit, and what it zeroes is zero at reset. -/
theorem clearCommand : Obligations.ClearCommand := ⟨rfl, fun s => ⟨checkCmd_encode .clear s, rfl⟩⟩

/-! ### The frame of a completion -/

/-- The host side of the block and the world outside stay (44_commands.md R108). -/
theorem sameHostSide_completed (i : Instr) (s : State) : SameHostSide s (completed i s) := by
  simp [SameHostSide]

/-- The schedule is written by KEYEXP and CLEAR only (R108). -/
theorem completed_schedule {i : Instr} (hk : i ≠ .keyexp) (hc : i ≠ .clear) (s : State) :
    (completed i s).rk = s.rk ∧ (completed i s).keyValid = s.keyValid := by
  cases i with
  | keyexp => exact absurd rfl hk
  | clear => exact absurd rfl hc
  | nop | enc | ofbInit | ofbBlock | ofbFinal _ => exact ⟨rfl, rfl⟩

/-- CHAIN is not written by NOP, KEYEXP, ENC or OFB_FINAL (R108). -/
theorem completed_chain {i : Instr} (h : i = .nop ∨ i = .keyexp ∨ i = .enc ∨ i.opcode = 0x5) (s : State) :
    (completed i s).chain = s.chain := by
  cases i with
  | nop | keyexp | enc | ofbFinal _ => rfl
  | ofbInit | ofbBlock | clear => simp [Instr.opcode] at h

/-- CHAIN_VALID is not written by NOP, KEYEXP, ENC or OFB_BLOCK (R108). -/
theorem completed_chainValid {i : Instr} (h : i = .nop ∨ i = .keyexp ∨ i = .enc ∨ i = .ofbBlock) (s : State) :
    (completed i s).chainValid = s.chainValid := by
  rcases h with rfl | rfl | rfl | rfl <;> rfl

/-- KS, STATE and DOUT are not written by NOP, KEYEXP or OFB_INIT (R108). -/
theorem completed_outputs {i : Instr} (h : i = .nop ∨ i = .keyexp ∨ i = .ofbInit) (s : State) :
    (completed i s).ks = s.ks ∧ (completed i s).cipherState = s.cipherState ∧ (completed i s).dout = s.dout := by
  rcases h with rfl | rfl | rfl <;> exact ⟨rfl, rfl, rfl⟩

/-- STATUS is at the aligned offset 0x04 only (20_memory.md R42). -/
theorem regAt_ne_status : ∀ off : BitVec 7, off.toNat / 4 ≠ 1 → regAt off ≠ .status := by
  decide

/-- IV and DIN are at offsets from 0x20 on (20_memory.md R42). -/
theorem le_of_regAt_iv_or_din : ∀ (off : BitVec 7) (k : Fin 4), regAt off = .iv k ∨ regAt off = .din k →
    0x20 ≤ off.toNat := by
  decide

/-- DOUT is at offsets from 0x40 on (20_memory.md R42). -/
theorem le_of_regAt_dout : ∀ (off : BitVec 7) (k : Fin 4), regAt off = .dout k → 0x40 ≤ off.toNat := by
  decide

/-- A read of any register but STATUS is of CMD_LAST, IEN, IV, DIN or DOUT, so it keeps its value where these do
(20_memory.md R42). -/
theorem busRead_congr {s t : State} {off : BitVec 7} (hside : SameHostSide s t) (hstatus : regAt off ≠ .status)
    (hivdin : ∀ k, regAt off = .iv k ∨ regAt off = .din k → t.iv = s.iv ∧ t.din = s.din)
    (hdout : ∀ k, regAt off = .dout k → t.dout = s.dout) : busRead off t = busRead off s := by
  obtain ⟨hcmd, -, -, hdoneIe, herrIe, -⟩ := hside
  unfold busRead
  cases hreg : regAt off with
  | cmd => exact hcmd
  | status => exact absurd hreg hstatus
  | ien => rw [readReg, readReg, ienWord, ienWord, hdoneIe, herrIe]
  | iv k => rw [readReg, readReg, (hivdin k (.inl hreg)).1]
  | din k => rw [readReg, readReg, (hivdin k (.inr hreg)).2]
  | dout k => rw [readReg, readReg, hdout k hreg]
  | key _ | reserved => rfl

/-- Reads of the window that a completion leaves (R108): it writes no register but DOUT that the host can read outside
STATUS, and DOUT for some commands only; CLEAR writes from IV on. -/
theorem busRead_completed {i : Instr} {off : BitVec 7} (hstatus : off.toNat / 4 ≠ 1)
    (h : (i = .nop ∨ i = .keyexp ∨ i = .ofbInit) ∨ off.toNat < 0x40 ∧ i ≠ .clear ∨ off.toNat < 0x20 ∨
      0x50 ≤ off.toNat) (s : State) : busRead off (completed i s) = busRead off s := by
  have read := busRead_congr (sameHostSide_completed i s) (regAt_ne_status off hstatus)
  rcases h with hi | ⟨hoff, hi⟩ | hoff | hoff
  · have hclear : i ≠ .clear := by rcases hi with rfl | rfl | rfl <;> simp
    exact read (fun _ _ => (completed_operands hclear s).2) (fun _ _ => (completed_outputs hi s).2.2)
  · exact read (fun _ _ => (completed_operands hi s).2) (fun k hk => by have := le_of_regAt_dout off k hk; omega)
  · exact read (fun k hk => by have := le_of_regAt_iv_or_din off k hk; omega)
      (fun k hk => by have := le_of_regAt_dout off k hk; omega)
  · rw [busRead_reserved (.inr hoff), busRead_reserved (.inr hoff)]

/-- Settles O38: the state a completion answers is `completed i s`; each clause is the frame of its registers. -/
theorem completionFrame : Obligations.CompletionFrame := by
  intro i s t h
  rw [exec_eq] at h
  cases h
  exact ⟨sameHostSide_completed i s, fun _ hstatus hoff => busRead_completed hstatus hoff s,
    fun hi => completed_operands hi s, fun hk hc => completed_schedule hk hc s, fun hi => completed_chain hi s,
    fun hi => completed_chainValid hi s, fun hi => completed_outputs hi s, fun hi => hi ▸ rfl⟩

end Sys2Proof.Machine
end

section
/-! Proofs: the exceptions of 60_exceptions.md. The conditions of every error (O20) and the effect of one (O19), bus errors
(O13), what no access reveals (O42), and the interrupt output (O43). -/

namespace Sys2Proof.Machine

variable {s : State}

/-! ### Accesses -/

/-- A narrow or misaligned access is a bus error (60_exceptions.md R126). -/
theorem hostAccess_busError {a : Access} (h : a.size ≠ .four ∨ a.off.toNat % 4 ≠ 0) (s : State) :
    hostAccess a s = (⟨.error, 0x00000000⟩, s) := by
  have hwf : ¬a.wellFormed = true := mt (wellFormed_iff a.kind a.off a.size).1 (not_and_or.2 h)
  rw [hostAccess, if_neg hwf]

/-- What an access is, from whatever state: a write or a read of a register, or a bus error (20_memory.md R43,
60_exceptions.md R126). -/
theorem hostAccess_cases (a : Access) :
    (∃ v, a = ⟨.write v, a.off, .four⟩ ∧ a.off.toNat % 4 = 0 ∧
      ∀ s, hostAccess a s = (⟨.okay, 0x00000000⟩, busWrite a.off v s)) ∨
    (a = ⟨.read, a.off, .four⟩ ∧ a.off.toNat % 4 = 0 ∧ ∀ s, hostAccess a s = (⟨.okay, busRead a.off s⟩, s)) ∨
    ((a.size ≠ .four ∨ a.off.toNat % 4 ≠ 0) ∧ ∀ s, hostAccess a s = (⟨.error, 0x00000000⟩, s)) := by
  obtain ⟨kind, off, size⟩ := a
  by_cases h : size = .four ∧ off.toNat % 4 = 0
  · obtain ⟨rfl, ha⟩ := h
    cases kind with
    | write v => exact .inl ⟨v, rfl, ha, fun s => hostAccess_write s ha v⟩
    | read => exact .inr (.inl ⟨rfl, ha, fun s => hostAccess_read s ha⟩)
  · exact .inr (.inr ⟨not_and_or.1 h, hostAccess_busError (not_and_or.1 h)⟩)

/-- A line with a misaligned access stops the program (30_encoding.md R65). -/
theorem lineAccess_busError (hr : s.env.rst = false) {off : BitVec 7} (h : off.toNat % 4 ≠ 0) {kind : AccessKind}
    (f : Word → HostAgent → HostAgent) : lineAccess ⟨kind, off, .four⟩ f s = .fault .busError := by
  rw [lineAccess, portAccess_released s _ hr, hostAccess_busError (.inr h)]

/-- Settles O13: the tests of the access are those of the bus, and a line has no other outcome for ERROR. -/
theorem busErrorsChangeNothing : Obligations.BusErrorsChangeNothing := by
  refine fun kind off size s => ⟨fun h => ?_, ?_, fun h hr =>
    ⟨fun v => by rw [runLine, lineAccess_busError hr h], fun t => by rw [runLine, lineAccess_busError hr h]⟩⟩
  · rw [hostAccess_busError h]
    exact ⟨rfl, rfl, fun _ => rfl⟩
  · rintro ⟨rfl, ha⟩
    cases kind with
    | write v => rw [hostAccess_write s ha]
    | read => rw [hostAccess_read s ha]

/-! ### Errors -/

/-- A write of KEY, IV or DIN while a command is pending is rejected with BUSY (60_exceptions.md R122, R124). -/
theorem busWrite_offset_of_busy (hb : s.busy = true) {x : BlockReg} (hx : x ≠ .dout) (k : Fin 4) (v : Word) :
    busWrite (BlockReg.offset x k) v s = raiseError .busy s := by
  have hop (f : State → State) : operandWrite f s = raiseError .busy s := by rw [operandWrite_eq, if_pos hb]
  rw [busWrite, regAt_offset]
  cases x with
  | key => exact hop (setKey k v)
  | iv => exact hop (setIv k v)
  | din => exact hop (setDin k v)
  | dout => exact absurd rfl hx

/-- Settles O19: each such write is `raiseError` of its error. -/
theorem rejectedWritesOnlyRecordTheError : Obligations.RejectedWritesOnlyRecordTheError := by
  refine fun v s => ⟨fun e he => ?_, fun hb x k hx => ?_⟩
  · have hw : writeCmd v s = raiseError e s := by rw [writeCmd, he]
    rw [hostAccess_write s rfl, busWrite_cmd, hw, raiseError_eq]
  · rw [hostAccess_write s (offset_aligned x k), busWrite_offset_of_busy hb hx, raiseError_eq]
    rfl

/-- CMD is at offset 0x00 only (20_memory.md R42). -/
theorem eq_zero_of_regAt_cmd : ∀ off : BitVec 7, off.toNat % 4 = 0 → regAt off = .cmd → off = 0x00 := by
  decide

/-- Each part of a 16-byte register is at one aligned offset only (20_memory.md R42). -/
theorem eq_offset_of_regAt (x : BlockReg) : ∀ (k : Fin 4) (off : BitVec 7), off.toNat % 4 = 0 →
    regAt off = regAt (BlockReg.offset x k) → off = BlockReg.offset x k := by
  cases x <;> decide

/-- The writes that set ERR: of CMD where `CheckCmd` rejects, and of KEY, IV or DIN where `CheckOperandWrite` does
(60_exceptions.md R122). -/
theorem rejected_of_writeReg_err {r : Reg} {v : Word} (hs : s.err = false) (h : (writeReg r v s).err = true) :
    (r = .cmd ∧ checkCmd v s ≠ none) ∨
      ∃ (x : BlockReg) (k : Fin 4), x ≠ .dout ∧ r = regAt (BlockReg.offset x k) ∧ checkOperandWrite s ≠ none := by
  have hraised {e : Option HostError} (h : (s.err || e.isSome) = true) : e ≠ none := by
    simpa [hs, Option.isSome_iff_ne_none] using h
  cases r with
  | cmd => exact .inl ⟨rfl, hraised (by rwa [writeReg_cmd] at h)⟩
  | key k => exact .inr ⟨.key, k, nofun, (regAt_offset .key k).symm, hraised (by rwa [writeReg_key] at h)⟩
  | iv k => exact .inr ⟨.iv, k, nofun, (regAt_offset .iv k).symm, hraised (by rwa [writeReg_iv] at h)⟩
  | din k => exact .inr ⟨.din, k, nofun, (regAt_offset .din k).symm, hraised (by rwa [writeReg_din] at h)⟩
  | status | ien | dout _ | reserved => simp [hs] at h

/-- The only operand out of its range is a LEN of 0 on OFB_FINAL (30_encoding.md R59). -/
theorem wellFormed_eq_false_iff (i : Instr) : i.wellFormed = false ↔ i.opcode = 0x5 ∧ i.len = 0 := by
  cases i <;> simp [Instr.wellFormed, Instr.opcode, Instr.len]

/-- The commands that read RK, by opcode (60_exceptions.md R122). -/
theorem needsKey_iff (i : Instr) : needsKey i = true ↔ i.opcode = 0x2 ∨ i.opcode = 0x4 ∨ i.opcode = 0x5 := by
  cases i <;> simp [needsKey, Instr.opcode]

/-- The commands that read CHAIN, by opcode (60_exceptions.md R122). -/
theorem needsChain_iff (i : Instr) : needsChain i = true ↔ i.opcode = 0x4 ∨ i.opcode = 0x5 := by
  cases i <;> simp [needsChain, Instr.opcode]

/-- The checks of a decoded command, by its opcode and LEN, in the priority of 60_exceptions.md R123. -/
theorem checkDecoded_eq (i : Instr) (s : State) : checkDecoded i s =
    if i.opcode = 0x5 ∧ i.len = 0 then some .badLen
    else if (i.opcode = 0x2 ∨ i.opcode = 0x4 ∨ i.opcode = 0x5) ∧ s.keyValid = false then some .noKey
    else if (i.opcode = 0x4 ∨ i.opcode = 0x5) ∧ s.chainValid = false then some .noChain
    else none := by
  simp only [checkDecoded, Bool.and_eq_true, Bool.not_eq_true', wellFormed_eq_false_iff, needsKey_iff, needsChain_iff]

/-- Settles O20: an access that sets ERR is a write, of a register whose write can; the tests of `CheckCmd` on a word that
decodes are those on its command's opcode and LEN. -/
theorem commandCheckPriority : Obligations.CommandCheckPriority := by
  refine ⟨fun s => rfl, fun a s hs h => ?_, fun v s => ?_⟩
  · rcases hostAccess_cases a with ⟨v, ha, hoff, heq⟩ | ⟨-, -, heq⟩ | ⟨-, heq⟩ <;> rw [heq s] at h
    · refine ⟨v, ha, ?_⟩
      rcases rejected_of_writeReg_err hs h with ⟨hreg, hc⟩ | ⟨x, k, hx, hreg, hc⟩
      · exact .inl ⟨eq_zero_of_regAt_cmd _ hoff hreg, hc⟩
      · exact .inr ⟨x, k, hx, eq_offset_of_regAt x k _ hoff hreg, hc⟩
    · cases hs.symm.trans h
    · cases hs.symm.trans h
  · rw [checkCmd]
    congr 1
    cases hd : decode v with
    | error e => exact (if_pos ((decode_eq_error_iff v).1 ⟨e, hd⟩)).symm
    | ok i =>
      have hlegal : ¬∃ e, decode v = .error e := by simp [hd]
      obtain ⟨-, -, hop, hlen⟩ := decode_ok hd
      refine (checkDecoded_eq i s).trans (Eq.trans ?_ (if_neg (mt (decode_eq_error_iff v).2 hlegal)).symm)
      rw [hop, hlen]
      rfl

/-! ### Key material -/

/-- The state with KEY, RK, STATE, CHAIN and KS replaced: what no access may reveal (60_exceptions.md R128). -/
def withSecrets (key cipherState chain ks : Block) (rk : RoundKeys) (s : State) : State :=
  { s with key := key, rk := rk, cipherState := cipherState, chain := chain, ks := ks }

section
variable (key cipherState chain ks : Block) (rk : RoundKeys) (s)

/-- No read returns a byte of the secrets (20_memory.md R42, 60_exceptions.md R128). -/
theorem busRead_withSecrets (off : BitVec 7) :
    busRead off (withSecrets key cipherState chain ks rk s) = busRead off s := by
  unfold busRead
  cases regAt off <;> rfl

/-- No write carries a secret into another register, and only one of KEY replaces a secret: its checks read none of
them. -/
theorem writeReg_withSecrets (r : Reg) (v : Word) :
    ∃ key', writeReg r v (withSecrets key cipherState chain ks rk s) =
      withSecrets key' cipherState chain ks rk (writeReg r v s) := by
  have hcmd : checkCmd v (withSecrets key cipherState chain ks rk s) = checkCmd v s := rfl
  have hop : checkOperandWrite (withSecrets key cipherState chain ks rk s) = checkOperandWrite s := rfl
  have hcode (e) : errCodeAfter e (withSecrets key cipherState chain ks rk s) = errCodeAfter e s := by
    cases e <;> rfl
  cases r with
  | cmd => exact ⟨key, by rw [writeReg_cmd, writeReg_cmd, hcmd, hcode]; rfl⟩
  | key k => exact ⟨if s.busy then key else unpack key v k, by rw [writeReg_key, writeReg_key, hop, hcode]; rfl⟩
  | iv k => exact ⟨key, by rw [writeReg_iv, writeReg_iv, hop, hcode]; rfl⟩
  | din k => exact ⟨key, by rw [writeReg_din, writeReg_din, hop, hcode]; rfl⟩
  | status => exact ⟨key, by rw [writeReg_status, writeReg_status]; rfl⟩
  | ien | dout _ | reserved => exact ⟨key, rfl⟩

/-- An access answers alike whatever the secrets are, and leaves all but KEY as they are (60_exceptions.md R128). -/
theorem hostAccess_withSecrets (a : Access) :
    ∃ key', hostAccess a (withSecrets key cipherState chain ks rk s) =
      ((hostAccess a s).1, withSecrets key' cipherState chain ks rk (hostAccess a s).2) := by
  rcases hostAccess_cases a with ⟨v, -, -, h⟩ | ⟨-, -, h⟩ | ⟨-, h⟩ <;> rw [h, h]
  · obtain ⟨key', hw⟩ := writeReg_withSecrets s key cipherState chain ks rk (regAt a.off) v
    exact ⟨key', congrArg (Prod.mk _) hw⟩
  · exact ⟨key, by rw [busRead_withSecrets]⟩
  · exact ⟨key, rfl⟩

end

/-- Settles O42: an access answers alike whatever the secrets are, and `irq` reads none of them. -/
theorem accessesDoNotRevealKeyMaterial : Obligations.AccessesDoNotRevealKeyMaterial := by
  intro a s key cipherState chain ks rk s'
  obtain ⟨key', h⟩ := hostAccess_withSecrets s key cipherState chain ks rk a
  have h' : hostAccess a s' = _ := h
  rw [h']
  exact ⟨rfl, rfl, key', rfl⟩

/-! ### The interrupt output -/

/-- Settles O43: each clause is `irq` at the DONE, ERR and enables that the act leaves. -/
theorem interruptOutput : Obligations.InterruptOutput := by
  refine ⟨fun s => by simp [irq], rfl, fun i s t h hie => ?_, fun s => ⟨?_, ?_⟩, fun v s hc => ?_⟩
  · rw [exec_eq] at h
    cases h
    simp [irq, hie]
  · rw [busWrite_clrst]
    simp [irq]
  · have hien : busWrite 0x08 0x00000000 s = { s with doneIe := false, errIe := false } := writeReg_ien s 0x00000000
    rw [hien]
    simp [irq]
  · rw [busWrite_cmd, writeCmd, hc]
    simp [irq]

end Sys2Proof.Machine
end

section
/-! Proofs: reset (70_reset_and_hazards.md R132 to R134). What reset leaves in the registers (O6) and in every read of the
window (O7). -/

namespace Sys2Proof.Machine

/-- While `rst` is asserted the engine has no step (70_reset_and_hazards.md R132). -/
theorem engineStep_of_rst {s : State} (hr : s.env.rst = true) : engineStep s = .next s := by
  rw [engineStep, if_pos hr]

/-- An access of a bus master while `rst` is asserted is refused (log 5). -/
theorem busStep_of_rst {s : State} (hr : s.env.rst = true) (a : Access) : busStep a s = .refused .accessDuringReset := by
  rw [busStep, portAccess, if_pos hr]

/-- A state with the block of `s` is `s` in another environment. -/
theorem SameBlock.eq_setEnv {s t : State} (h : SameBlock s t) : t = setEnv s t.env :=
  calc t = setEnv (setEnv t s.env) t.env := rfl
    _ = setEnv s t.env := congrArg (setEnv · t.env) h

/-- Every part of a zero block is a zero word (20_memory.md R46). -/
theorem pack_zero : ∀ k : Fin 4, pack Block.zero k = 0x00000000 := by
  decide

/-- Every register of the window reads as zero in the reset state (70_reset_and_hazards.md R134). -/
theorem readReg_reset (r : Reg) : readReg r State.reset = 0x00000000 := by
  cases r with
  | iv k | din k | dout k => exact pack_zero k
  | cmd | status | ien | key _ | reserved => rfl

/-- Settles O6: a block in reset is the reset state's, field by field, and a step runs its event. -/
theorem resetTakesEveryElement : Obligations.ResetTakesEveryElement := by
  refine ⟨fun t ht => ?_, fun s rest hs => ?_, fun s rest hr hs => ?_, fun s a rest hr hs => ?_⟩
  · rw [ht.eq_setEnv]
    exact ⟨rfl, readReg_reset .status, readReg_reset .ien, rfl, rfl, rfl, rfl,
      fun i hi => Vector.getElem_replicate hi, rfl, rfl, rfl, rfl, rfl⟩
  · exact ⟨_, step_of_event hs, rfl, rfl⟩
  · rw [step_of_event hs]
    exact engineStep_of_rst (s := setScript rest s) hr
  · rw [step_of_event hs]
    exact busStep_of_rst (s := setScript rest s) hr a

/-- Settles O7: every offset reads a register of the window. -/
theorem firstReadsAfterResetAreZero : Obligations.FirstReadsAfterResetAreZero :=
  ⟨rfl, rfl, rfl, rfl, rfl, fun off => readReg_reset (regAt off)⟩

end Sys2Proof.Machine
end

section
/-! Proofs: the clock (70_reset_and_hazards.md R140). A pending command counts cycles until it is due, whatever accesses
reach the port (O54), and the events of each cycle do what the cycle does (O55). -/

namespace Sys2Proof.Machine

variable {lat : BitVec 4 → Nat} {t : TimedState} {i : Instr} {n : Nat}

/-- `rst` at the level it has. -/
theorem setRst_of_rst {b : Bool} {s : State} (h : s.env.rst = b) : setRst b s = s := by
  subst h
  rfl

/-- The latency of this implementation is within its bound (70_reset_and_hazards.md R140, R141). -/
theorem lat_bounds (op : BitVec 4) : 1 ≤ Config.lat op ∧ Config.lat op ≤ Config.latMax :=
  ⟨Nat.le_add_left 1 _, Nat.mod_lt _ (Nat.succ_pos _)⟩

/-- The access of a cycle with `rst` released. -/
theorem timedAccess_released (hr : t.state.env.rst = false) (a : Access) : timedAccess (some a) t =
    .next { state := setResponse (hostAccess a t.state).1 (hostAccess a t.state).2,
            elapsed := if t.state.busy then t.elapsed else 0 } := by
  simp only [timedAccess, busStep_released t.state a hr]

/-- A CMD write that is accepted starts the count at 0 (70_reset_and_hazards.md R140). -/
theorem timedAccess_of_accepted {v : Word} (hr : t.state.env.rst = false) (hc : checkCmd v t.state = none) :
    timedAccess (some ⟨.write v, 0x00, .four⟩) t =
      .next { state := setResponse ⟨.okay, 0x00000000⟩ (accept v t.state), elapsed := 0 } := by
  have hidle : t.state.pending = none := ((checkCmd_eq_none t.state).1 hc).1
  rw [timedAccess_released hr, hostAccess_write t.state rfl, busWrite_cmd, writeCmd, hc]
  simp [hidle]

/-- A cycle with `rst` sampled 0 and released before it is the engine's part, then the access (20_memory.md R52). -/
theorem cycle_of_timedEngine {u : TimedState} (hr : t.state.env.rst = false) (h : timedEngine lat t = .next u)
    (access : Option Access) : cycle lat { rst := false, access := access } t = timedAccess access u := by
  have ht : { t with state := setRst false t.state } = t := by rw [setRst_of_rst hr]
  simp only [cycle, ht, h, Bool.false_eq_true, if_false]

/-- Command `i` has been pending for `n` cycles, with `rst` released (70_reset_and_hazards.md R140). -/
structure PendingFor (i : Instr) (n : Nat) (t : TimedState) : Prop where
  pending  : t.state.pending = some i
  released : t.state.env.rst = false
  elapsed  : t.elapsed = n

/-- Before its last cycle the pending command only counts (70_reset_and_hazards.md R140). -/
theorem PendingFor.timedEngine_early (h : PendingFor i n t) (hn : n + 1 < lat i.opcode) :
    timedEngine lat t = .next { t with elapsed := n + 1 } := by
  simp [timedEngine, h.pending, h.elapsed, hn]

/-- In its last cycle the pending command completes (70_reset_and_hazards.md R140). -/
theorem PendingFor.timedEngine_due (h : PendingFor i n t) (hn : n + 1 = lat i.opcode) :
    timedEngine lat t = .next { state := completed i t.state, elapsed := 0 } := by
  simp [timedEngine, h.pending, h.elapsed, hn, engineStep_pending t.state h.released h.pending]

/-- An access leaves a pending command and its count (20_memory.md R55). -/
theorem PendingFor.kept_by_access (h : PendingFor i n t) (access : Option Access) :
    ∃ u, timedAccess access t = .next u ∧ PendingFor i n u := by
  cases access with
  | none => exact ⟨t, rfl, h⟩
  | some a =>
    refine ⟨_, timedAccess_released h.released a, ?_, by simpa using h.released, by simp [h.pending, h.elapsed]⟩
    exact (pending_of_engineView (engineView_hostAccess h.pending a)).trans h.pending

/-- A cycle before its last leaves the command pending, its count one more, whatever the access. -/
theorem PendingFor.cycle_early (h : PendingFor i n t) (hn : n + 1 < lat i.opcode) (access : Option Access) :
    ∃ u, cycle lat { rst := false, access := access } t = .next u ∧ PendingFor i (n + 1) u := by
  rw [cycle_of_timedEngine h.released (h.timedEngine_early hn)]
  have hcount : PendingFor i (n + 1) { t with elapsed := n + 1 } := ⟨h.pending, h.released, rfl⟩
  exact hcount.kept_by_access access

/-- The command's last cycle is its completion, then the access, which sees the results (20_memory.md R52). -/
theorem PendingFor.cycle_due (h : PendingFor i n t) (hn : n + 1 = lat i.opcode) (access : Option Access) :
    cycle lat { rst := false, access := access } t =
      timedAccess access { state := completed i t.state, elapsed := 0 } :=
  cycle_of_timedEngine h.released (h.timedEngine_due hn) access

/-- Cycles before its last leave the command pending, its count their number more. -/
theorem PendingFor.cycles_early (h : PendingFor i n t) {cs : List CycleInput} (hrst : ∀ c ∈ cs, c.rst = false)
    (hn : n + cs.length < lat i.opcode) : ∃ u, cycles lat cs t = .next u ∧ PendingFor i (n + cs.length) u := by
  induction cs generalizing n t with
  | nil => exact ⟨t, rfl, h⟩
  | cons c cs ih =>
    obtain ⟨rst, access⟩ := c
    obtain ⟨rfl, hcs⟩ := List.forall_mem_cons.1 hrst
    have hlen : n + (cs.length + 1) = n + 1 + cs.length := by omega
    rw [List.length_cons, hlen] at hn ⊢
    obtain ⟨u, hu, hpending⟩ := h.cycle_early (lat := lat) (by omega) access
    rw [cycles, hu]
    exact ih hpending hcs hn

/-- Settles O54: from a count of 0, by the cycles before the command's last and that last one. -/
theorem completionAfterLatency : Obligations.CompletionAfterLatency := by
  refine ⟨lat_bounds, fun v t hr hc => ⟨_, timedAccess_of_accepted hr hc, rfl, rfl⟩,
    fun lat i s cs hp hr hrst hlen => ?_⟩
  have hstart : PendingFor i 0 { state := s, elapsed := 0 } := ⟨hp, hr, rfl⟩
  obtain ⟨u, hrun, hu⟩ := hstart.cycles_early (lat := lat) hrst (by omega)
  rw [Nat.zero_add] at hu
  exact ⟨u, hrun, hu.pending, hu.elapsed, fun hdue access => ⟨_, exec_eq u.state i, hu.cycle_due hdue access⟩⟩

/-- The events of a cycle do what the cycle does (20_memory.md R52, 70_reset_and_hazards.md R132, R140). -/
theorem runScript_cycleEvents (lat : BitVec 4 → Nat) (c : CycleInput) (t : TimedState) (es : List Event) :
    runScript (cycleEvents lat c t ++ es) t.state =
      match cycle lat c t with
      | .next u => runScript es u.state
      | .fault f => .fault f
      | .refused r => .refused r := by
  obtain ⟨rst, access⟩ := c
  cases rst with
  | true => exact runScript_accessEvents access { state := setRst true (resetBlock t.state), elapsed := 0 } es
  | false =>
    have hdue := runScript_dueEvents lat { t with state := setRst false t.state } (accessEvents access ++ es)
    rw [← List.append_assoc] at hdue
    refine hdue.trans ?_
    rw [cycle, if_neg Bool.false_ne_true]
    cases timedEngine lat { t with state := setRst false t.state } with
    | next u => exact runScript_accessEvents access u es
    | fault f => rfl
    | refused r => rfl

/-- The events of a clocked run do what the clocked run does, with no event left. -/
theorem runScript_clockedEvents (lat : BitVec 4 → Nat) (cs : List CycleInput) (t : TimedState) :
    runScript (clockedEvents lat cs t) t.state =
      match cycles lat cs t with
      | .next u => .next (setScript [] u.state)
      | .fault f => .fault f
      | .refused r => .refused r := by
  induction cs generalizing t with
  | nil => rfl
  | cons c cs ih =>
    rw [clockedEvents, runScript_cycleEvents, cycles]
    cases cycle lat c t with
    | next u => exact ih u
    | fault f => rfl
    | refused r => rfl

/-- Settles O55: the run cycle by cycle, and a cycle in reset is its access to a block in reset. -/
theorem clockedRunsAreUntimedRuns : Obligations.ClockedRunsAreUntimedRuns := by
  refine ⟨runScript_clockedEvents, fun lat t => ⟨⟨_, rfl, rfl, rfl⟩, fun a => ?_⟩⟩
  rw [cycle, if_pos rfl, timedAccess, busStep_of_rst rfl]

end Sys2Proof.Machine
end
